-- ==== Sys2Proof/Word.lean ====
section
/-! DEFINITION. The word types of the block and its two bit symbols (spec/00_scope.md R11, R13, R14). -/

namespace Sys2Proof

/-- A command word, CMDW = 32 bits (R11, R14). -/
abbrev Word := BitVec 32

/-- A symbol, SYMW = 8 bits: one character code (R11, R13). -/
abbrev Symbol := BitVec 8

/-- An error position, POSW = 24 bits, unsigned (R11, R22). -/
abbrev Position := BitVec 24

/-- A finite sequence of symbols, index 0 leftmost, first and most significant (R12, R50). -/
abbrev SymSeq := List Symbol

/-- The symbol `'0'` (R13). PRESUMED: the spec takes the code 0x30 from general knowledge (G1; Log 6). -/
def sym0 : Symbol := 0x30

/-- The symbol `'1'` (R13). PRESUMED: the spec takes the code 0x31 from general knowledge (G1; Log 6). -/
def sym1 : Symbol := 0x31

end Sys2Proof
end

