-- ==== Sys2Proof/Syntax.lean ====
section
/-! DEFINITION. The nine commands of the block (spec/30_encoding.md R72) and their operands (R73, R74). -/

namespace Sys2Proof

/-- The four sequence registers, the operands of PUSH (R21, R73: selectors 0 to 3). -/
inductive SeqReg where
  | frame
  | poly
  | opa
  | opb
deriving DecidableEq, Repr

/-- The registers CLR may name (R73: selectors 0 to 4). -/
inductive ClrReg where
  | seq (x : SeqReg)
  | epos
deriving DecidableEq, Repr

/-- The registers HEX may name (R73: selectors 0 to 3, 5 and 6). -/
inductive HexReg where
  | seq (x : SeqReg)
  | crc
  | crck
deriving DecidableEq, Repr

/-- The configuration fields (R74: indexes 0 and 1). -/
inductive CfgField where
  | sliceEn
  | dispW
deriving DecidableEq, Repr

/-- The commands, one constructor per row of the opcode table (R72). -/
inductive Instr where
  | clr (x : ClrReg)
  | push (x : SeqReg) (c : Symbol)
  | pushp (p : Position)
  | cfgw (f : CfgField) (v : BitVec 24)
  | crc
  | hex (x : HexReg)
  | ham
  | analyze
  | reset
deriving DecidableEq, Repr

end Sys2Proof
end

