-- ==== Sys2Proof/WellFormed.lean ====
section
/-! DEFINITION. Which commands have an encoding. The types of `Instr` already keep out every illegal selector of
R73 and R74; the one condition left is the legal value of CFG.SLICE_EN (R74, R77). -/

namespace Sys2Proof

/-- The value is legal for the field: 0 or 1 for SLICE_EN, any value for DISP_W (R74). -/
def CfgField.legalValue : CfgField → BitVec 24 → Bool
  | .sliceEn, v => decide (v.toNat ≤ 1)
  | .dispW, _ => true

/-- The command has legal operands (the last column of R72). -/
def Instr.wf : Instr → Bool
  | .clr _ => true
  | .push _ _ => true
  | .pushp _ => true
  | .cfgw f v => f.legalValue v
  | .crc => true
  | .hex _ => true
  | .ham => true
  | .analyze => true
  | .reset => true

end Sys2Proof
end

