-- ==== Sys2Proof/Decode.lean ====
section
/-! DEFINITION. The decoder and the encoder of command words (spec/30_encoding.md R70 to R78). -/

namespace Sys2Proof

/-- Why a word is no command (R77). Every one raises IllegalCommand; the names are the model's (Log 13). -/
inductive Illegal where
  /-- `op` is 0x0 or 0xA to 0xF. -/
  | unknownOpcode
  /-- `sel` is not 0 in a format that has none. -/
  | selNotZero
  /-- A part of `imm` that must be 0 is not. -/
  | immNotZero
  /-- `sel` is not legal for the command. -/
  | illegalSelector
  /-- CFGW of SLICE_EN with a value above 1. -/
  | illegalValue
deriving DecidableEq, Repr

/-- The opcode field `w[31:28]` (R70). -/
def opField (w : Word) : BitVec 4 := w.extractLsb' 28 4

/-- The selector field `w[27:24]` (R70). -/
def selField (w : Word) : BitVec 4 := w.extractLsb' 24 4

/-- The immediate field `w[23:0]` (R70). -/
def immField (w : Word) : BitVec 24 := w.extractLsb' 0 24

/-- The sequence register a selector names (R73). -/
def seqReg? (sel : BitVec 4) : Option SeqReg :=
  match sel.toNat with
  | 0 => some .frame
  | 1 => some .poly
  | 2 => some .opa
  | 3 => some .opb
  | _ => none

/-- The register a selector names in CLR (R73). -/
def clrReg? (sel : BitVec 4) : Option ClrReg :=
  match sel.toNat with
  | 4 => some .epos
  | _ => (seqReg? sel).map .seq

/-- The register a selector names in HEX (R73). -/
def hexReg? (sel : BitVec 4) : Option HexReg :=
  match sel.toNat with
  | 5 => some .crc
  | 6 => some .crck
  | _ => (seqReg? sel).map .seq

/-- The configuration field an index names (R74). -/
def cfgField? (sel : BitVec 4) : Option CfgField :=
  match sel.toNat with
  | 0 => some .sliceEn
  | 1 => some .dispW
  | _ => none

/-- Format Z: `sel` and `imm` must be 0 (R71). -/
def decodeZ (i : Instr) (sel : BitVec 4) (imm : BitVec 24) : Except Illegal Instr :=
  if sel ≠ 0 then .error .selNotZero
  else if imm ≠ 0 then .error .immNotZero
  else .ok i

/-- CLR, format S: `imm` must be 0 (R71, R72). -/
def decodeClr (sel : BitVec 4) (imm : BitVec 24) : Except Illegal Instr :=
  if imm ≠ 0 then .error .immNotZero
  else match clrReg? sel with
    | some x => .ok (.clr x)
    | none => .error .illegalSelector

/-- HEX, format S: `imm` must be 0 (R71, R72). -/
def decodeHex (sel : BitVec 4) (imm : BitVec 24) : Except Illegal Instr :=
  if imm ≠ 0 then .error .immNotZero
  else match hexReg? sel with
    | some x => .ok (.hex x)
    | none => .error .illegalSelector

/-- PUSH, format SC: the symbol is `imm[7:0]`, and `imm[23:8]` must be 0 (R71, R75). -/
def decodePush (sel : BitVec 4) (imm : BitVec 24) : Except Illegal Instr :=
  if imm.extractLsb' 8 16 ≠ 0 then .error .immNotZero
  else match seqReg? sel with
    | some x => .ok (.push x (imm.extractLsb' 0 8))
    | none => .error .illegalSelector

/-- PUSHP, format I: `sel` must be 0 (R71, R75). -/
def decodePushp (sel : BitVec 4) (imm : BitVec 24) : Except Illegal Instr :=
  if sel ≠ 0 then .error .selNotZero
  else .ok (.pushp imm)

/-- CFGW, format SI (R71, R74, R75). -/
def decodeCfgw (sel : BitVec 4) (imm : BitVec 24) : Except Illegal Instr :=
  match cfgField? sel with
  | some f => if f.legalValue imm then .ok (.cfgw f imm) else .error .illegalValue
  | none => .error .illegalSelector

/-- `decode(w)`, total on all words (R78). -/
def decode (w : Word) : Except Illegal Instr :=
  let sel := selField w
  let imm := immField w
  match (opField w).toNat with
  | 0x1 => decodeClr sel imm
  | 0x2 => decodePush sel imm
  | 0x3 => decodePushp sel imm
  | 0x4 => decodeCfgw sel imm
  | 0x5 => decodeZ .crc sel imm
  | 0x6 => decodeHex sel imm
  | 0x7 => decodeZ .ham sel imm
  | 0x8 => decodeZ .analyze sel imm
  | 0x9 => decodeZ .reset sel imm
  | _ => .error .unknownOpcode

/-- The selector of a sequence register (R73). -/
def SeqReg.sel : SeqReg → BitVec 4
  | .frame => 0
  | .poly => 1
  | .opa => 2
  | .opb => 3

/-- The selector of a register of CLR (R73). -/
def ClrReg.sel : ClrReg → BitVec 4
  | .seq x => x.sel
  | .epos => 4

/-- The selector of a register of HEX (R73). -/
def HexReg.sel : HexReg → BitVec 4
  | .seq x => x.sel
  | .crc => 5
  | .crck => 6

/-- The index of a configuration field (R74). -/
def CfgField.index : CfgField → BitVec 4
  | .sliceEn => 0
  | .dispW => 1

/-- A command word from its three fields (R70). -/
def mkWord (op sel : BitVec 4) (imm : BitVec 24) : Word := op ++ sel ++ imm

/-- The word of a command (R72). -/
def encode : Instr → Word
  | .clr x => mkWord 0x1 x.sel 0
  | .push x c => mkWord 0x2 x.sel (c.setWidth 24)
  | .pushp p => mkWord 0x3 0 p
  | .cfgw f v => mkWord 0x4 f.index v
  | .crc => mkWord 0x5 0 0
  | .hex x => mkWord 0x6 x.sel 0
  | .ham => mkWord 0x7 0 0
  | .analyze => mkWord 0x8 0 0
  | .reset => mkWord 0x9 0 0

/-- The command word the opcode table's numbering gives: the table's bit 0 is `w[0]`, and a bit at or above `nbits`
is 0 (Log 14). -/
def tableWord (nbits w : Nat) : Word := BitVec.ofNat 32 (w % 2 ^ nbits)

/-- The command the decoder reads from a word numbered as spec/opcode_table.json numbers it. -/
def decodeTableWord (nbits w : Nat) : Option Instr :=
  match decode (tableWord nbits w) with
  | .ok i => some i
  | .error _ => none

end Sys2Proof
end

