-- ==== Sys2Proof/Machine/State.lean ====
section
/-! DEFINITION. The state of one CORE instance (spec/10_state.md R20 to R37), its reset value (R41), and the ways a
step or a host read can end. -/

namespace Sys2Proof.Machine

/-- A result register: `none` is the spec's own `invalid`, `some v` a value (R15, R37). -/
abbrev Result (α : Type) := Option α

/-- The baseline record of BASE (R35). -/
structure Baseline where
  crc  : SymSeq
  dist : Nat
deriving DecidableEq, Repr

/-- A row of REPORT (R36). -/
structure ReportRow where
  pos    : Position
  cframe : SymSeq
  ccrc   : SymSeq
  dist   : Nat
deriving DecidableEq, Repr

/-- What the host does to the block, one thing at a time and only between commands (R58, R180; Log 1, Log 4). -/
inductive HostInput where
  /-- The host issues a command word (R26). -/
  | command (w : Word)
  /-- The host applies hardware reset (R180). -/
  | hardReset
deriving DecidableEq, Repr

/-- The errors a command can raise (R159). -/
inductive ErrorKind where
  | invalidPolynomial
  | invalidBitString
  | lengthMismatch
  | emptyOperand
  | overflow
  | illegalCommand
  | invalidSource
deriving DecidableEq, Repr

/-- The result registers one command owns: it writes them on success, and an error of it makes them invalid (R160). -/
inductive ResultGroup where
  /-- CRC and CRCK, owned by the CRC command. -/
  | crc
  /-- HEXR, owned by HEX. -/
  | hex
  /-- DIST, owned by HAM. -/
  | ham
  /-- BASE and REPORT, owned by ANALYZE. -/
  | analyze
deriving DecidableEq, Repr

/-- The state of one instance: exactly the registers of R20, and `pending`, the model's own field. -/
structure State where
  /-- FRAME (R21). -/
  frame   : SymSeq
  /-- POLY (R21). -/
  poly    : SymSeq
  /-- OPA (R21). -/
  opa     : SymSeq
  /-- OPB (R21). -/
  opb     : SymSeq
  /-- EPOS (R22). -/
  epos    : List Position
  /-- CFG.SLICE_EN (R30). -/
  sliceEn : BitVec 1
  /-- CFG.DISP_W (R31). -/
  dispW   : BitVec 24
  /-- CRC (R32). -/
  crc     : Result SymSeq
  /-- CRCK (R32). -/
  crck    : Result SymSeq
  /-- HEXR (R33). -/
  hexr    : Result SymSeq
  /-- DIST (R34). -/
  dist    : Result Nat
  /-- BASE (R35). -/
  base    : Result Baseline
  /-- REPORT (R36). -/
  report  : Result (List ReportRow)
  /-- STATUS.ERR (R27). The V flags are not separate state: Machine/Flags.lean computes them. -/
  err     : BitVec 4
  /-- The model's own field: the host's inputs still to come, oldest first (Log 1). -/
  pending : List HostInput
deriving DecidableEq, Repr

/-- The machine after reset (R41). `pending` is empty: DESIGN CHOICE (Log 1). -/
def State.reset : State where
  frame   := []
  poly    := []
  opa     := []
  opb     := []
  epos    := []
  sliceEn := 1
  dispW   := 15
  crc     := none
  crck    := none
  hexr    := none
  dist    := none
  base    := none
  report  := none
  err     := 0
  pending := []

/-- The ways the machine can stop with a fault: none. Every error of the spec ends its command with a code in
STATUS.ERR and the block is ready for the next command (R160, R163), and every command ends (R187, R189). -/
inductive Fault where
deriving DecidableEq, Repr

/-- The ways the model can give no answer. No step of the machine answers with either of these. -/
inductive Refusal where
  /-- An instruction without a meaning: raised by an arm of `exec` only; no arm does. Safe. -/
  | notModelled (mnemonic : String)
  /-- A host read of a result register that is invalid (R37, U9): raised by `readReg` only, never by a step. Safe. -/
  | noValue
deriving DecidableEq, Repr

end Sys2Proof.Machine
end

