-- ==== Sys2Proof/Machine/Flags.lean ====
section
/-! DEFINITION. STATUS: the codes of STATUS.ERR (spec/60_exceptions.md R159) and the derived V flags
(spec/10_state.md R27). -/

namespace Sys2Proof.Machine

/-- The code of OK (R159). -/
def okCode : BitVec 4 := 0

/-- The code of an error (R159). -/
def errCode : ErrorKind → BitVec 4
  | .invalidPolynomial => 1
  | .invalidBitString => 2
  | .lengthMismatch => 3
  | .emptyOperand => 4
  | .overflow => 5
  | .illegalCommand => 6
  | .invalidSource => 7

/-- STATUS.VCRC: CRC and CRCK are both valid (R27; they always are together, Log 15). -/
def vcrc (s : State) : Bool := s.crc.isSome && s.crck.isSome

/-- STATUS.VHEX: HEXR is valid (R27). -/
def vhex (s : State) : Bool := s.hexr.isSome

/-- STATUS.VDIST: DIST is valid (R27). -/
def vdist (s : State) : Bool := s.dist.isSome

/-- STATUS.VREP: BASE and REPORT are both valid (R27; they always are together, Log 15). -/
def vrep (s : State) : Bool := s.base.isSome && s.report.isSome

end Sys2Proof.Machine
end

