-- ==== Sys2Proof/Config.lean ====
section
/-! DEFINITION. What the spec fixes for every block (R8) and the two capacities it leaves open (R10). -/

namespace Sys2Proof

/-- A capacity: a number of entries, or `unbounded` (R10). -/
inductive Capacity where
  | bounded (n : Nat)
  | unbounded
deriving DecidableEq, Repr, Inhabited

namespace Config

/-- SLICE_THRESHOLD: only frames strictly longer than this are sliced (R8). -/
def sliceThreshold : Nat := 32

/-- SLICE_FIELD: the trailing field of a sliced frame, CRC field plus delimiter (R8). -/
def sliceField : Nat := 16

/-- DELIM_BITS: the delimiter, the last bit of the frame (R8). -/
def delimBits : Nat := 1

/-- MIN_POLY: the least length of a valid stripped polynomial (R8). -/
def minPoly : Nat := 2

/-- The least legal MAXLEN (R10). -/
def leastMaxLen : Nat := 33

/-- The greatest legal bounded MAXLEN, `2^24 - 1` (R10). -/
def greatestMaxLen : Nat := 16777215

/-- The least legal MAXPOS (R10). -/
def leastMaxPos : Nat := 1

/-- What the implementation chooses for MAXLEN, before it is cut to the legal range.
An open parameter of the spec (R10, D4; Log 5): no value is known. -/
opaque chosenMaxLen : Capacity

/-- What the implementation chooses for MAXPOS, before it is cut to the legal range.
An open parameter of the spec (R10, D4; Log 5): no value is known. -/
opaque chosenMaxPos : Capacity

/-- The legal MAXLEN nearest to a choice; a legal choice is kept as it is (R10). -/
def legalMaxLen : Capacity → Capacity
  | .bounded n => .bounded (max leastMaxLen (min n greatestMaxLen))
  | .unbounded => .unbounded

/-- The legal MAXPOS nearest to a choice; a legal choice is kept as it is (R10). -/
def legalMaxPos : Capacity → Capacity
  | .bounded n => .bounded (max leastMaxPos n)
  | .unbounded => .unbounded

/-- MAXLEN: capacity in symbols of FRAME, POLY, OPA and OPB (R10). -/
def maxLen : Capacity := legalMaxLen chosenMaxLen

/-- MAXPOS: capacity in entries of EPOS (R10). -/
def maxPos : Capacity := legalMaxPos chosenMaxPos

end Config

end Sys2Proof
end

