-- ==== Sys2Proof/Machine/Operands.lean ====
section
/-! DEFINITION. The notation of spec/00_scope.md R12 to R19 over symbols and sequences: what every operand is made of.
A helper that the spec defines only under a condition is total here; each command tests the condition before it uses the
helper (Log 9). -/

namespace Sys2Proof.Machine

/-- `isbit(c)` (R13). -/
def isBit (c : Symbol) : Bool := c == sym0 || c == sym1

/-- `isbits(s)`; true of the empty sequence (R13). -/
def isBits (s : SymSeq) : Bool := s.all isBit

/-- `bit(c)`, for a symbol with `isbit` (R13). -/
def bit (c : Symbol) : Nat := if c == sym1 then 1 else 0

/-- `sym(b)`, for 0 and 1 (R13). -/
def sym (b : Nat) : Symbol := if b == 0 then sym0 else sym1

/-- `c1 xor c2`, addition in GF(2), for two symbols with `isbit` (R13, R103). -/
def xorSym (c1 c2 : Symbol) : Symbol := sym ((bit c1 + bit c2) % 2)

/-- `flipc(c)`, for a symbol with `isbit` (R13). -/
def flipSym (c : Symbol) : Symbol := if c == sym0 then sym1 else sym0

/-- `slice(s, a, b)`, half open, for `a ≤ b ≤ len(s)` (R12). -/
def slice (s : SymSeq) (a b : Nat) : SymSeq := (s.take b).drop a

/-- `rep(c, m)` (R12). -/
def rep (c : Symbol) (m : Nat) : SymSeq := List.replicate m c

/-- `strip(p)`: the leading zeros are dropped, later ones kept (R16). -/
def strip (p : SymSeq) : SymSeq := p.dropWhile (· == sym0)

/-- `pad(x, W)`: zeros on the left up to width `W`, never truncated (R17). -/
def pad (x : SymSeq) (w : Nat) : SymSeq := rep sym0 (max x.length w - x.length) ++ x

/-- `flip(s, p)`, for `p < len(s)` (R18). -/
def flipAt (s : SymSeq) (p : Nat) : SymSeq :=
  slice s 0 p ++ ((slice s p (p + 1)).map flipSym ++ slice s (p + 1) s.length)

/-- `value(s)`: the sequence read as an unsigned binary number, leftmost symbol most significant (R19). -/
def value (s : SymSeq) : Nat := s.foldl (fun v c => 2 * v + bit c) 0

end Sys2Proof.Machine
end

