-- ==== Sys2Proof/Machine/Ops.lean ====
section
/-! DEFINITION. The named operations over the registers: reading and writing each (R15, R55), ending a command with
success (R170) or an error (R160), reset (R41), and the host's read (R135). -/

namespace Sys2Proof.Machine

/-- `R[x]` for a sequence register (R15). -/
def getSeq (x : SeqReg) (s : State) : SymSeq :=
  match x with
  | .frame => s.frame
  | .poly => s.poly
  | .opa => s.opa
  | .opb => s.opb

/-- `R[x] <- v` for a sequence register (R15). -/
def setSeq (x : SeqReg) (v : SymSeq) (s : State) : State :=
  match x with
  | .frame => { s with frame := v }
  | .poly => { s with poly := v }
  | .opa => { s with opa := v }
  | .opb => { s with opb := v }

/-- `R[EPOS] <- ps` (R15). -/
def setEpos (ps : List Position) (s : State) : State := { s with epos := ps }

/-- `CFG.SLICE_EN <- b` (R30). -/
def setSliceEn (b : BitVec 1) (s : State) : State := { s with sliceEn := b }

/-- `CFG.DISP_W <- v` (R31). -/
def setDispW (v : BitVec 24) (s : State) : State := { s with dispW := v }

/-- `R[CRC] <- c`, `R[CRCK] <- ck` (R32). -/
def setCrc (c ck : SymSeq) (s : State) : State := { s with crc := some c, crck := some ck }

/-- `R[HEXR] <- h` (R33). -/
def setHexr (h : SymSeq) (s : State) : State := { s with hexr := some h }

/-- `R[DIST] <- d` (R34). -/
def setDist (d : Nat) (s : State) : State := { s with dist := some d }

/-- `R[BASE] <- b`, `R[REPORT] <- rows` (R35, R36). -/
def setReport (b : Baseline) (rows : List ReportRow) (s : State) : State :=
  { s with base := some b, report := some rows }

/-- `STATUS.ERR <- c` (R27). -/
def setErr (c : BitVec 4) (s : State) : State := { s with err := c }

/-- Make the result registers of a group invalid (R15, R160). -/
def invalidate (g : ResultGroup) (s : State) : State :=
  match g with
  | .crc => { s with crc := none, crck := none }
  | .hex => { s with hexr := none }
  | .ham => { s with dist := none }
  | .analyze => { s with base := none, report := none }

/-- A command ends with success (R170). -/
def succeed (s : State) : State := setErr okCode s

/-- `raise E`: taking an error, the one operation for every command (R160). `owns` is the group of result registers the
command would have written on success, `none` for a command that writes none and for an illegal word. There is no return
from it: the block is ready for the next command (R163). -/
def raise (owns : Option ResultGroup) (e : ErrorKind) (s : State) : State :=
  match owns with
  | some g => setErr (errCode e) (invalidate g s)
  | none => setErr (errCode e) s

/-- A store of the capacity that holds `n` entries is full (R10, R131, R132). -/
def isFull (cap : Capacity) (n : Nat) : Bool :=
  match cap with
  | .bounded m => n == m
  | .unbounded => false

/-- `SeqAppend(x, c)` (R55). -/
def seqAppend (x : SeqReg) (c : Symbol) (s : State) : State := setSeq x (getSeq x s ++ [c]) s

/-- `SeqClear(x)` (R55). -/
def seqClear (x : ClrReg) (s : State) : State :=
  match x with
  | .seq r => setSeq r [] s
  | .epos => setEpos [] s

/-- Every register gets its reset value (R41, R134, R180). `pending` is the host's, no register: it stays (Log 4). -/
def resetRegs (s : State) : State := { State.reset with pending := s.pending }

/-- What an illegal word does (R77, R157, R160): no command was identified, so no result register is made invalid. -/
def illegalWord (s : State) : State := raise none .illegalCommand s

/-- The registers the host can read (R135). -/
inductive HostReg where
  | seq (x : SeqReg)
  | epos
  | sliceEn
  | dispW
  | crc
  | crck
  | hexr
  | dist
  | base
  | report
  | err
  | vcrc
  | vhex
  | vdist
  | vrep
deriving DecidableEq, Repr

/-- The value a host read gives, whole, with its length (R135). -/
inductive HostValue where
  | symbols (v : SymSeq)
  | positions (v : List Position)
  | bit (v : Bool)
  | width (v : BitVec 24)
  | number (v : Nat)
  | baseline (v : Baseline)
  | rows (v : List ReportRow)
  | code (v : BitVec 4)
deriving DecidableEq, Repr

/-- Reading a result register: no value when it is invalid (R37). -/
def readResult {α : Type} (wrap : α → HostValue) : Result α → Except Refusal HostValue
  | some v => .ok (wrap v)
  | none => .error .noValue

/-- The host reads a register between commands (R53, R135). It changes nothing, so it gives no state (Log 7). -/
def readReg (r : HostReg) (s : State) : Except Refusal HostValue :=
  match r with
  | .seq x => .ok (.symbols (getSeq x s))
  | .epos => .ok (.positions s.epos)
  | .sliceEn => .ok (.bit (s.sliceEn == 1))
  | .dispW => .ok (.width s.dispW)
  | .crc => readResult .symbols s.crc
  | .crck => readResult .symbols s.crck
  | .hexr => readResult .symbols s.hexr
  | .dist => readResult .number s.dist
  | .base => readResult .baseline s.base
  | .report => readResult .rows s.report
  | .err => .ok (.code s.err)
  | .vcrc => .ok (.bit (vcrc s))
  | .vhex => .ok (.bit (vhex s))
  | .vdist => .ok (.bit (vdist s))
  | .vrep => .ok (.bit (vrep s))

end Sys2Proof.Machine
end

