-- ==== Sys2Proof/Machine/Engine.lean ====
section
/-! DEFINITION. The CRC engine family (spec/40_crc_engine.md): the slicer, the division, CRC and HEX. -/

namespace Sys2Proof.Machine

/-- The slicer `work(f, en)` (R92): the final bit of a frame longer than 32 bits is dropped. -/
def work (f : SymSeq) (en : BitVec 1) : SymSeq :=
  if en = 1 ∧ f.length > Config.sliceThreshold then
    slice f 0 (f.length - Config.sliceField) ++
      slice f (f.length - Config.sliceField) (f.length - Config.delimBits)
  else f

/-- The polynomial XORed into the front of a sequence, element by element (R93). -/
def xorFront : SymSeq → SymSeq → SymSeq
  | b :: bs, p :: ps => xorSym b p :: xorFront bs ps
  | bs, [] => bs
  | [], _ => []

/-- `buf[i+j] <- buf[i+j] xor sp[j]` for `0 ≤ j < k` (R93). -/
def xorAt (sp buf : SymSeq) (i : Nat) : SymSeq := buf.take i ++ xorFront (buf.drop i) sp

/-- One pivot of the division (R93, R97). -/
def pivot (sp buf : SymSeq) (i : Nat) : SymSeq :=
  if buf[i]? = some sym1 then xorAt sp buf i else buf

/-- The buffer after the pivots `0, …, m-1` (R93, R97). -/
def divideTo (w sp : SymSeq) (m : Nat) : SymSeq :=
  (List.range m).foldl (pivot sp) (w ++ rep sym0 (sp.length - 1))

/-- `divide(w, sp)`: all `n` pivots (R93). -/
def divide (w sp : SymSeq) : SymSeq := divideTo w sp w.length

/-- The remainder, the last `k - 1` bits of the buffer (R94). -/
def remainder (w sp : SymSeq) : SymSeq :=
  slice (divide w sp) w.length (w.length + sp.length - 1)

/-- The wide view, the last `k` bits of the buffer (R94). -/
def wideRemainder (w sp : SymSeq) : SymSeq :=
  slice (divide w sp) (w.length - 1) (w.length + sp.length - 1)

/-- `crc_of(f)` for a polynomial and a SLICE_EN (R115). -/
def crcOf (en : BitVec 1) (poly f : SymSeq) : SymSeq := remainder (work f en) (strip poly)

/-- The checks of CRC and ANALYZE, in order (R95, R120, R162): the first that fails, if any. -/
def crcOperandError (frame poly : SymSeq) : Option ErrorKind :=
  if !isBits poly || !isBits frame then some .invalidBitString
  else if (strip poly).length < Config.minPoly then some .invalidPolynomial
  else if frame.length = 0 then some .emptyOperand
  else none

/-- `compute_crc(frame, polynomial)` (R4, R95): the CRC and its wide view, or an error. -/
def computeCrc (en : BitVec 1) (frame poly : SymSeq) : Except ErrorKind (SymSeq × SymSeq) :=
  match crcOperandError frame poly with
  | some e => .error e
  | none => .ok (crcOf en poly frame, wideRemainder (work frame en) (strip poly))

/-- CRC (R95). -/
def execCrc (s : State) : Host.Outcome State Fault Refusal :=
  .next (match computeCrc s.sliceEn s.frame s.poly with
    | .error e => raise (some .crc) e s
    | .ok r => succeed (setCrc r.1 r.2 s))

/-- The bit length of a natural number; 0 has bit length 0 (R102). -/
def bitLength (v : Nat) : Nat := if v = 0 then 0 else Nat.log2 v + 1

/-- The number of hexadecimal digits, `max(1, ceil(bitlength(v) / 4))` (R102). -/
def hexDigitCount (v : Nat) : Nat := max 1 ((bitLength v + 3) / 4)

/-- The character of a digit 0 to 15, lower case (R102). PRESUMED: the spec takes the codes from general knowledge
(G2; Log 6). -/
def hexDigit (d : Nat) : Symbol :=
  if d < 10 then BitVec.ofNat 8 (0x30 + d) else BitVec.ofNat 8 (0x61 + (d - 10))

/-- The lowest `n` hexadecimal digits of a number, most significant first (R102). -/
def hexDigits : Nat → Nat → SymSeq
  | 0, _ => []
  | n + 1, v => hexDigit (v / 16 ^ n % 16) :: hexDigits n v

/-- `hexstr(v)`: `0x` and the digits (R102). -/
def hexstr (v : Nat) : SymSeq := 0x30 :: 0x78 :: hexDigits (hexDigitCount v) v

/-- `binary_to_hex(bits)` (R4, R101): the literal, or an error. -/
def binaryToHex (bits : SymSeq) : Except ErrorKind SymSeq :=
  if !isBits bits then .error .invalidBitString
  else if bits.length = 0 then .error .emptyOperand
  else .ok (hexstr (value bits))

/-- The content of the register HEX names; no content when a result register is invalid (R101). -/
def hexSource (x : HexReg) (s : State) : Option SymSeq :=
  match x with
  | .seq r => some (getSeq r s)
  | .crc => s.crc
  | .crck => s.crck

/-- HEX (R101). -/
def execHex (x : HexReg) (s : State) : Host.Outcome State Fault Refusal :=
  .next (match hexSource x s with
    | none => raise (some .hex) .invalidSource s
    | some bits =>
      match binaryToHex bits with
      | .error e => raise (some .hex) e s
      | .ok h => succeed (setHexr h s))

end Sys2Proof.Machine
end

