-- ==== Sys2Proof/Machine/Analysis.lean ====
section
/-! DEFINITION. The error-analysis family (spec/41_error_analysis.md): the comparator, HAM and ANALYZE. -/

namespace Sys2Proof.Machine

/-- `hamming(a, b)`, for sequences of equal length: the places where they differ (R112). -/
def hamming (a b : SymSeq) : Nat := (a.zip b).countP (fun p => p.1 != p.2)

/-- `hamming_distance(a, b)` (R4, R113): the distance, or an error. -/
def hammingDistance (a b : SymSeq) : Except ErrorKind Nat :=
  if !isBits a || !isBits b then .error .invalidBitString
  else if a.length ≠ b.length then .error .lengthMismatch
  else .ok (hamming a b)

/-- HAM (R113). -/
def execHam (s : State) : Host.Outcome State Fault Refusal :=
  .next (match hammingDistance s.opa s.opb with
    | .error e => raise (some .ham) e s
    | .ok d => succeed (setDist d s))

/-- `pad(crc_of(f), W)`: a CRC at the display width (R115, R117). -/
def paddedCrc (en : BitVec 1) (w : Nat) (poly f : SymSeq) : SymSeq := pad (crcOf en poly f) w

/-- The row of an in-range position (R117). The flip is applied to the frame as loaded (R57). -/
def analysisRow (en : BitVec 1) (w : Nat) (frame poly : SymSeq) (p : Position) : ReportRow :=
  let cf := flipAt frame p.toNat
  let cc := paddedCrc en w poly cf
  { pos := p, cframe := cf, ccrc := cc, dist := hamming (paddedCrc en w poly frame) cc }

/-- The rows of a position list, in its order; a position beyond the frame gives none (R117, R118). -/
def analysisRows (en : BitVec 1) (w : Nat) (frame poly : SymSeq) : List Position → List ReportRow
  | [] => []
  | p :: ps =>
    if p.toNat < frame.length then
      analysisRow en w frame poly p :: analysisRows en w frame poly ps
    else analysisRows en w frame poly ps

/-- `analyze_errors(frame, polynomial, error_positions)` (R4, R120): the baseline and the rows, or an error. -/
def analyzeErrors (en : BitVec 1) (w : Nat) (frame poly : SymSeq) (epos : List Position) :
    Except ErrorKind (Baseline × List ReportRow) :=
  match crcOperandError frame poly with
  | some e => .error e
  | none =>
    .ok ({ crc := paddedCrc en w poly frame, dist := 0 }, analysisRows en w frame poly epos)

/-- ANALYZE (R120). -/
def execAnalyze (s : State) : Host.Outcome State Fault Refusal :=
  .next (match analyzeErrors s.sliceEn s.dispW.toNat s.frame s.poly s.epos with
    | .error e => raise (some .analyze) e s
    | .ok r => succeed (setReport r.1 r.2 s))

end Sys2Proof.Machine
end

