-- ==== Sys2Proof/Machine/Control.lean ====
section
/-! DEFINITION. Operand loading and control (spec/42_operand_and_control.md): CLR, PUSH, PUSHP, CFGW and RESET. -/

namespace Sys2Proof.Machine

/-- CLR (R130). -/
def execClr (x : ClrReg) (s : State) : Host.Outcome State Fault Refusal :=
  .next (succeed (seqClear x s))

/-- PUSH in a block whose sequence registers have the capacity `cap` (R131). -/
def pushSymbol (cap : Capacity) (x : SeqReg) (c : Symbol) (s : State) : State :=
  if isFull cap (getSeq x s).length then raise none .overflow s
  else succeed (seqAppend x c s)

/-- PUSH (R131). -/
def execPush (x : SeqReg) (c : Symbol) (s : State) : Host.Outcome State Fault Refusal :=
  .next (pushSymbol Config.maxLen x c s)

/-- PUSHP in a block whose position list has the capacity `cap` (R132). -/
def pushPosition (cap : Capacity) (p : Position) (s : State) : State :=
  if isFull cap s.epos.length then raise none .overflow s
  else succeed (setEpos (s.epos ++ [p]) s)

/-- PUSHP (R132). -/
def execPushp (p : Position) (s : State) : Host.Outcome State Fault Refusal :=
  .next (pushPosition Config.maxPos p s)

/-- The configuration write of CFGW (R133). For SLICE_EN only `v[0]` is stored (R75; Log 10). -/
def writeCfg (f : CfgField) (v : BitVec 24) (s : State) : State :=
  match f with
  | .sliceEn => setSliceEn (v.extractLsb' 0 1) s
  | .dispW => setDispW v s

/-- CFGW (R133). -/
def execCfgw (f : CfgField) (v : BitVec 24) (s : State) : Host.Outcome State Fault Refusal :=
  .next (succeed (writeCfg f v s))

/-- RESET (R134). -/
def execReset (s : State) : Host.Outcome State Fault Refusal :=
  .next (succeed (resetRegs s))

end Sys2Proof.Machine
end

