-- ==== Sys2Proof/Machine/Dispatch.lean ====
section
/-! DEFINITION. One arm per command: each is one call of the command's meaning. -/

namespace Sys2Proof.Machine

-- The command's meaning (spec/30_encoding.md R72 names the rule of each).
def exec (i : Instr) (s : State) : Host.Outcome State Fault Refusal :=
  match i with
  | .clr x => Sys2Proof.Machine.execClr x s
  | .push x c => Sys2Proof.Machine.execPush x c s
  | .pushp p => Sys2Proof.Machine.execPushp p s
  | .cfgw f v => Sys2Proof.Machine.execCfgw f v s
  | .crc => Sys2Proof.Machine.execCrc s
  | .hex x => Sys2Proof.Machine.execHex x s
  | .ham => Sys2Proof.Machine.execHam s
  | .analyze => Sys2Proof.Machine.execAnalyze s
  | .reset => Sys2Proof.Machine.execReset s

end Sys2Proof.Machine
end

