-- ==== Sys2Proof/Machine/Step.lean ====
section
/-! DEFINITION. One step: the block takes the host's next input and runs it to completion (R26, R58, R187). -/

namespace Sys2Proof.Machine

/-- One step. With no input the block is idle and holds its registers (R168; Log 3). -/
def step (s : State) : Host.Outcome State Fault Refusal :=
  match s.pending with
  | [] => .next s
  | .hardReset :: rest => .next (resetRegs { s with pending := rest })
  | .command w :: rest =>
    match decode w with
    | .ok i => exec i { s with pending := rest }
    | .error _ => .next (illegalWord { s with pending := rest })

/-- The state with one more command word, put where `step` takes its next input (Log 2). -/
def State.withFetchWord (s : State) (nbits w : Nat) : State :=
  { s with pending := .command (tableWord nbits w) :: s.pending }

end Sys2Proof.Machine
end

