-- ==== Sys2Proof/Machine/Assembler.lean ====
section
/-! DEFINITION. The assembler of spec/30_encoding.md R80 and its pseudo-commands (R81). The block never sees a line of
text or a pseudo-command, only the words they expand to. What the spec leaves open in the text form is Log 16. -/

namespace Sys2Proof.Machine

/-- What one assembler line says: a command, or a pseudo-command (R80, R81). -/
inductive AsmLine where
  | cmd (i : Instr)
  | load (x : SeqReg) (cs : SymSeq)
  | loadp (ps : List Position)
deriving DecidableEq, Repr

/-- `LOAD x, cs`: CLR, then one PUSH per character, in order (R81). -/
def expandLoad (x : SeqReg) (cs : SymSeq) : List Instr := .clr (.seq x) :: cs.map (Instr.push x)

/-- `LOADP ps`: CLR EPOS, then one PUSHP per position, in order (R81). -/
def expandLoadp (ps : List Position) : List Instr := .clr .epos :: ps.map Instr.pushp

/-- The commands a line expands to (R81). -/
def expandLine : AsmLine → List Instr
  | .cmd i => [i]
  | .load x cs => expandLoad x cs
  | .loadp ps => expandLoadp ps

/-- The words of a line; an ill-formed command has none (R80, R81). -/
def lineWords (l : AsmLine) : Option (List Word) :=
  if (expandLine l).all Instr.wf then some ((expandLine l).map encode) else none

/-- The character `'`. -/
def quoteChar : Char := Char.ofNat 39

/-- The character `"`. -/
def doubleQuoteChar : Char := Char.ofNat 34

/-- Blanks at the front are skipped. -/
def skipBlanks (cs : List Char) : List Char := cs.dropWhile (· == ' ')

/-- A character of a name: a capital letter or `_`. -/
def isNameChar (c : Char) : Bool := c.isUpper || c == '_'

/-- A name at the front, and the rest of the line. -/
def takeName (cs : List Char) : List Char × List Char :=
  ((skipBlanks cs).takeWhile isNameChar, (skipBlanks cs).dropWhile isNameChar)

/-- The value of a hexadecimal digit character. -/
def digitValue? (c : Char) : Option Nat :=
  if '0' ≤ c ∧ c ≤ '9' then some (c.toNat - '0'.toNat)
  else if 'a' ≤ c ∧ c ≤ 'f' then some (c.toNat - 'a'.toNat + 10)
  else if 'A' ≤ c ∧ c ≤ 'F' then some (c.toNat - 'A'.toNat + 10)
  else none

/-- The digits of a number in a base, after at least one digit has been read. -/
def takeDigits (base : Nat) : Nat → List Char → Nat × List Char
  | v, [] => (v, [])
  | v, c :: cs =>
    match digitValue? c with
    | some d => if d < base then takeDigits base (base * v + d) cs else (v, c :: cs)
    | none => (v, c :: cs)

/-- A number with at least one digit in a base. -/
def takeNumberIn (base : Nat) : List Char → Option (Nat × List Char)
  | [] => none
  | c :: cs =>
    match digitValue? c with
    | some d => if d < base then some (takeDigits base d cs) else none
    | none => none

/-- A number: hexadecimal after `0x`, else decimal (R14, R80). -/
def takeNumber (cs : List Char) : Option (Nat × List Char) :=
  match skipBlanks cs with
  | '0' :: 'x' :: rest => takeNumberIn 16 rest
  | rest => takeNumberIn 10 rest

/-- A comma between operands, and the rest of the line. -/
def takeComma (cs : List Char) : Option (List Char) :=
  match skipBlanks cs with
  | ',' :: rest => some rest
  | _ => none

/-- Nothing but blanks is left. -/
def lineEnds (cs : List Char) : Bool := (skipBlanks cs).isEmpty

/-- The sequence register of a name (R80). -/
def seqRegOfName (n : List Char) : Option SeqReg :=
  if n = "FRAME".toList then some .frame
  else if n = "POLY".toList then some .poly
  else if n = "OPA".toList then some .opa
  else if n = "OPB".toList then some .opb
  else none

/-- The register of a name in CLR (R73, R80). -/
def clrRegOfName (n : List Char) : Option ClrReg :=
  if n = "EPOS".toList then some .epos else (seqRegOfName n).map .seq

/-- The register of a name in HEX (R73, R80). -/
def hexRegOfName (n : List Char) : Option HexReg :=
  if n = "CRC".toList then some .crc
  else if n = "CRCK".toList then some .crck
  else (seqRegOfName n).map .seq

/-- The configuration field of a name (R80). -/
def cfgFieldOfName (n : List Char) : Option CfgField :=
  if n = "SLICE_EN".toList then some .sliceEn
  else if n = "DISP_W".toList then some .dispW
  else none

/-- The symbol of a character: its 8-bit code (R13). -/
def charSymbol (c : Char) : Option Symbol :=
  if c.toNat < 256 then some (BitVec.ofNat 8 c.toNat) else none

/-- A symbol operand that ends the line: a character in single quotes, or a number 0 to 255 (R80). -/
def symbolOperand (cs : List Char) : Option Symbol :=
  match skipBlanks cs with
  | [] => none
  | q :: rest =>
    if q = quoteChar then
      match rest with
      | c :: q' :: tail => if q' = quoteChar ∧ lineEnds tail then charSymbol c else none
      | _ => none
    else
      match takeNumber (q :: rest) with
      | some (v, tail) => if v < 256 ∧ lineEnds tail then some (BitVec.ofNat 8 v) else none
      | none => none

/-- A number operand below `2^24` that ends the line: a position or a configuration value (R80). -/
def numberOperand (cs : List Char) : Option (BitVec 24) :=
  match takeNumber cs with
  | some (v, tail) => if v < 2 ^ 24 ∧ lineEnds tail then some (BitVec.ofNat 24 v) else none
  | none => none

/-- A string operand in double quotes that ends the line (R81). -/
def stringOperand (cs : List Char) : Option SymSeq :=
  match skipBlanks cs with
  | [] => none
  | q :: rest =>
    match rest.dropWhile (· != doubleQuoteChar) with
    | [] => none
    | _ :: tail =>
      if q = doubleQuoteChar ∧ lineEnds tail then
        (rest.takeWhile (· != doubleQuoteChar)).mapM charSymbol
      else none

/-- The positions after the first, up to the closing bracket that ends the line (R81). `fuel` bounds their number. -/
def morePositions : Nat → List Char → Option (List Position)
  | 0, _ => none
  | fuel + 1, cs =>
    match skipBlanks cs with
    | ']' :: tail => if lineEnds tail then some [] else none
    | ',' :: rest =>
      match takeNumber rest with
      | some (v, tail) =>
        if v < 2 ^ 24 then (morePositions fuel tail).map (BitVec.ofNat 24 v :: ·) else none
      | none => none
    | _ => none

/-- A bracketed list of positions that ends the line (R81). -/
def positionsOperand (cs : List Char) : Option (List Position) :=
  match skipBlanks cs with
  | '[' :: rest =>
    match skipBlanks rest with
    | ']' :: tail => if lineEnds tail then some [] else none
    | more => morePositions (more.length + 1) (',' :: more)
  | _ => none

/-- A command or pseudo-command with one operand or none, after its mnemonic. -/
def parseShort (m rest : List Char) : Option AsmLine :=
  if m = "CRC".toList then (if lineEnds rest then some (.cmd .crc) else none)
  else if m = "HAM".toList then (if lineEnds rest then some (.cmd .ham) else none)
  else if m = "ANALYZE".toList then (if lineEnds rest then some (.cmd .analyze) else none)
  else if m = "RESET".toList then (if lineEnds rest then some (.cmd .reset) else none)
  else if m = "CLR".toList then
    (if lineEnds (takeName rest).2 then (clrRegOfName (takeName rest).1).map (.cmd ∘ .clr) else none)
  else if m = "HEX".toList then
    (if lineEnds (takeName rest).2 then (hexRegOfName (takeName rest).1).map (.cmd ∘ .hex) else none)
  else if m = "PUSHP".toList then (numberOperand rest).map (.cmd ∘ .pushp)
  else if m = "LOADP".toList then (positionsOperand rest).map .loadp
  else none

/-- A command or pseudo-command with two operands, after its mnemonic. -/
def parseLong (m rest : List Char) : Option AsmLine :=
  match takeComma (takeName rest).2 with
  | none => none
  | some tail =>
    if m = "PUSH".toList then
      match seqRegOfName (takeName rest).1, symbolOperand tail with
      | some x, some c => some (.cmd (.push x c))
      | _, _ => none
    else if m = "CFGW".toList then
      match cfgFieldOfName (takeName rest).1, numberOperand tail with
      | some f, some v => some (.cmd (.cfgw f v))
      | _, _ => none
    else if m = "LOAD".toList then
      match seqRegOfName (takeName rest).1, stringOperand tail with
      | some x, some cs => some (.load x cs)
      | _, _ => none
    else none

/-- One assembler line: the mnemonic in upper case, then operands separated by commas (R80). -/
def parseLine (line : String) : Option AsmLine :=
  let m := (takeName line.toList).1
  let rest := (takeName line.toList).2
  if m = "PUSH".toList ∨ m = "CFGW".toList ∨ m = "LOAD".toList then parseLong m rest
  else parseShort m rest

/-- The words an assembler line stands for (R80, R81). -/
def assemble (line : String) : Option (List Word) :=
  match parseLine line with
  | some l => lineWords l
  | none => none

end Sys2Proof.Machine
end

