-- ==== Sys2Proof/Safety.lean ====
section
/-! DEFINITION. The terms claims are stated in: what holds of every state the block can be in (`Legal`;
spec/10_state.md R21 to R36, spec/60_exceptions.md R159), which results a command owns (R160), and the words of the
statements about bit sequences (R13, R72, R77, R104). -/

namespace Sys2Proof.Machine

/-- `n` entries fit a store of the capacity (R10). -/
def fits (cap : Capacity) (n : Nat) : Prop :=
  match cap with
  | .bounded m => n ≤ m
  | .unbounded => True

/-- A lowercase hexadecimal digit character (R102). -/
def isHexDigit (c : Symbol) : Bool :=
  (decide (0x30 ≤ c.toNat) && decide (c.toNat ≤ 0x39)) ||
    (decide (0x61 ≤ c.toNat) && decide (c.toNat ≤ 0x66))

/-- `0x` and one or more lowercase hexadecimal digits, at most `ceil(MAXLEN / 4)` of them (R33). -/
def HexLiteral (cap : Capacity) (h : SymSeq) : Prop :=
  ∃ ds, h = 0x30 :: 0x78 :: ds ∧ ds ≠ [] ∧ ds.all isHexDigit = true ∧
    match cap with
    | .bounded m => ds.length ≤ (m + 3) / 4
    | .unbounded => True

/-- CRC and CRCK are invalid together, or valid together with CRCK = "0" ++ CRC (R27, R32). -/
def CrcPairLegal (cap : Capacity) : Result SymSeq → Result SymSeq → Prop
  | none, none => True
  | some c, some ck => ck = sym0 :: c ∧ isBits c = true ∧ c ≠ [] ∧ fits cap ck.length
  | _, _ => False

/-- A row of a report with the baseline `b`, made from the frame `f` (R36). -/
structure RowLegal (cap : Capacity) (b : Baseline) (f : SymSeq) (r : ReportRow) : Prop where
  pos_in_range : r.pos.toNat < r.cframe.length
  cframe_bits  : isBits r.cframe = true
  cframe_fits  : fits cap r.cframe.length
  cframe_flip  : flipAt r.cframe r.pos.toNat = f
  ccrc_bits    : isBits r.ccrc = true
  ccrc_length  : r.ccrc.length = b.crc.length
  dist_is      : r.dist = hamming b.crc r.ccrc

/-- BASE and REPORT are invalid together, or valid together (R27); the baseline's distance is 0 (R35), and every row is
of one frame and against this baseline (R36). -/
def ReportLegal (capLen capPos : Capacity) : Result Baseline → Result (List ReportRow) → Prop
  | none, none => True
  | some b, some rows =>
    b.dist = 0 ∧ isBits b.crc = true ∧ b.crc ≠ [] ∧ fits capPos rows.length ∧
      ∃ f, ∀ r ∈ rows, RowLegal capLen b f r
  | _, _ => False

/-- What holds of every state of the block. -/
structure Legal (s : State) : Prop where
  /-- FRAME, POLY, OPA and OPB hold at most MAXLEN symbols (R21). -/
  seq_fits : ∀ x, fits Config.maxLen (getSeq x s).length
  /-- EPOS holds at most MAXPOS positions (R22). -/
  epos_fits : fits Config.maxPos s.epos.length
  /-- CRC and CRCK (R27, R32). -/
  crc_pair : CrcPairLegal Config.maxLen s.crc s.crck
  /-- HEXR (R33). -/
  hexr_literal : ∀ h, s.hexr = some h → HexLiteral Config.maxLen h
  /-- DIST is at most the length its operands had (R34). -/
  dist_fits : ∀ d, s.dist = some d → fits Config.maxLen d
  /-- BASE and REPORT (R27, R35, R36). -/
  report_pair : ReportLegal Config.maxLen Config.maxPos s.base s.report
  /-- STATUS.ERR is never 8 to 15 (R159). -/
  err_named : s.err.toNat ≤ 7

/-- The result registers the command writes on success (R160). -/
def owns : Instr → Option ResultGroup
  | .clr _ => none
  | .push _ _ => none
  | .pushp _ => none
  | .cfgw _ _ => none
  | .crc => some .crc
  | .hex _ => some .hex
  | .ham => some .ham
  | .analyze => some .analyze
  | .reset => none

/-- Every result register of the group is valid (R27). -/
def groupValid (g : ResultGroup) (s : State) : Bool :=
  match g with
  | .crc => s.crc.isSome && s.crck.isSome
  | .hex => s.hexr.isSome
  | .ham => s.dist.isSome
  | .analyze => s.base.isSome && s.report.isSome

/-- The operand registers of two states are the same (R20). -/
def SameOperands (s t : State) : Prop :=
  t.frame = s.frame ∧ t.poly = s.poly ∧ t.opa = s.opa ∧ t.opb = s.opb ∧ t.epos = s.epos

/-- The configuration of two states is the same (R29). -/
def SameConfig (s t : State) : Prop := t.sliceEn = s.sliceEn ∧ t.dispW = s.dispW

/-- The result registers of two states are the same (R20). -/
def SameResults (s t : State) : Prop :=
  t.crc = s.crc ∧ t.crck = s.crck ∧ t.hexr = s.hexr ∧ t.dist = s.dist ∧ t.base = s.base ∧ t.report = s.report

/-- A word is illegal, in the words of R77. -/
def IllegalByR77 (w : Word) : Prop :=
  let op := opField w
  let sel := selField w
  let imm := immField w
  (op = 0x0 ∨ 0xA ≤ op.toNat) ∨
  ((op = 0x5 ∨ op = 0x7 ∨ op = 0x8 ∨ op = 0x9) ∧ (sel ≠ 0 ∨ imm ≠ 0)) ∨
  (op = 0x3 ∧ sel ≠ 0) ∨
  ((op = 0x1 ∨ op = 0x6) ∧ imm ≠ 0) ∨
  (op = 0x2 ∧ imm.extractLsb' 8 16 ≠ 0) ∨
  (op = 0x1 ∧ 5 ≤ sel.toNat) ∨
  (op = 0x2 ∧ 4 ≤ sel.toNat) ∨
  (op = 0x6 ∧ (sel = 4 ∨ 7 ≤ sel.toNat)) ∨
  (op = 0x4 ∧ 2 ≤ sel.toNat) ∨
  (op = 0x4 ∧ sel = 0 ∧ 1 < imm.toNat)

/-- A valid stripped polynomial: a bit sequence of at least two bits that starts with `'1'` (R90). -/
def ValidDivisor (sp : SymSeq) : Prop := isBits sp = true ∧ 2 ≤ sp.length ∧ sp.head? = some sym1

/-- The operands pass every check of CRC and ANALYZE (R95, R120). -/
def ValidCrcOperands (frame poly : SymSeq) : Prop :=
  isBits poly = true ∧ isBits frame = true ∧ 2 ≤ (strip poly).length ∧ frame ≠ []

/-- The bitwise XOR of two sequences (R104). -/
def xorSeq (a b : SymSeq) : SymSeq := List.zipWith xorSym a b

/-- `P` is the polynomial over GF(2) whose coefficient list is `s`, highest power first (R50, R104). -/
def IsPolynomialOf (s : SymSeq) (P : Polynomial (ZMod 2)) : Prop :=
  ∀ j, P.coeff j = if j < s.length then (bit (s.getD (s.length - 1 - j) sym0) : ZMod 2) else 0

/-- The host's inputs that issue a list of commands, in order (R81). -/
def issue (is : List Instr) : List HostInput := is.map (fun i => .command (encode i))

end Sys2Proof.Machine
end

