-- ==== Sys2Proof/Certificates/Slice0/Obligations.lean ====
section
/-! DEFINITION. The statements for the provers. Each docstring names the rule of spec/ it formalises. -/

open Sys2Proof Sys2Proof.Machine

/-! ### Encoding -/

/-- The example words of R80, each decoded, and each assembled from the line beside it. -/
def Obligations.ExampleWordsDecode : Prop :=
  (decode 0x10000000 = .ok (.clr (.seq .frame)) ∧ assemble "CLR FRAME" = some [0x10000000]) ∧
  (decode 0x21000031 = .ok (.push .poly sym1) ∧ assemble "PUSH POLY, '1'" = some [0x21000031]) ∧
  (decode 0x20000030 = .ok (.push .frame sym0) ∧ assemble "PUSH FRAME, '0'" = some [0x20000030]) ∧
  (decode 0x30000009 = .ok (.pushp 9) ∧ assemble "PUSHP 9" = some [0x30000009]) ∧
  (decode 0x40000000 = .ok (.cfgw .sliceEn 0) ∧ assemble "CFGW SLICE_EN, 0" = some [0x40000000]) ∧
  (decode 0x41000004 = .ok (.cfgw .dispW 4) ∧ assemble "CFGW DISP_W, 4" = some [0x41000004]) ∧
  (decode 0x50000000 = .ok .crc ∧ assemble "CRC" = some [0x50000000]) ∧
  (decode 0x65000000 = .ok (.hex .crc) ∧ assemble "HEX CRC" = some [0x65000000]) ∧
  (decode 0x70000000 = .ok .ham ∧ assemble "HAM" = some [0x70000000]) ∧
  (decode 0x80000000 = .ok .analyze ∧ assemble "ANALYZE" = some [0x80000000]) ∧
  (decode 0x90000000 = .ok .reset ∧ assemble "RESET" = some [0x90000000])

/-- Decoding the word of any well-formed command gives the command back, with every operand. -/
def Obligations.DecodeOfEncode : Prop :=
  ∀ i : Instr, i.wf = true → decode (encode i) = .ok i

/-- A word that decodes to a command is that command's one word, and the command is well formed. -/
def Obligations.EncodeOfDecode : Prop :=
  ∀ (w : Word) (i : Instr), decode w = .ok i → i.wf = true ∧ encode i = w

/-- R72: match, mask and further conditions of the nine rows, and the opcodes that select no command. -/
def Obligations.CommandTableByMaskAndMatch : Prop :=
  ∀ w : Word,
    ((∃ x, decode w = .ok (.clr x)) ↔ w &&& 0xF0FFFFFF = 0x10000000 ∧ (selField w).toNat ≤ 4) ∧
    ((∃ x c, decode w = .ok (.push x c)) ↔ w &&& 0xF0FFFF00 = 0x20000000 ∧ (selField w).toNat ≤ 3) ∧
    ((∃ p, decode w = .ok (.pushp p)) ↔ w &&& 0xFF000000 = 0x30000000) ∧
    ((∃ f v, decode w = .ok (.cfgw f v)) ↔ w &&& 0xF0000000 = 0x40000000 ∧ (selField w).toNat ≤ 1 ∧
      (selField w = 0 → (immField w).toNat ≤ 1)) ∧
    (decode w = .ok .crc ↔ w &&& 0xFFFFFFFF = 0x50000000) ∧
    ((∃ x, decode w = .ok (.hex x)) ↔ w &&& 0xF0FFFFFF = 0x60000000 ∧
      (selField w).toNat ∈ ([0, 1, 2, 3, 5, 6] : List Nat)) ∧
    (decode w = .ok .ham ↔ w &&& 0xFFFFFFFF = 0x70000000) ∧
    (decode w = .ok .analyze ↔ w &&& 0xFFFFFFFF = 0x80000000) ∧
    (decode w = .ok .reset ↔ w &&& 0xFFFFFFFF = 0x90000000) ∧
    ((opField w = 0x0 ∨ 0xA ≤ (opField w).toNat) → ∀ i, decode w ≠ .ok i)

/-- R73, R74 and R75: which register or field each selector names in each command, with the immediates as they stand. -/
def Obligations.SelectorsAndImmediates : Prop :=
  ∀ w : Word,
    (decode w = .ok (.clr (.seq .frame)) ↔ w = 0x10000000) ∧
    (decode w = .ok (.clr (.seq .poly)) ↔ w = 0x11000000) ∧
    (decode w = .ok (.clr (.seq .opa)) ↔ w = 0x12000000) ∧
    (decode w = .ok (.clr (.seq .opb)) ↔ w = 0x13000000) ∧
    (decode w = .ok (.clr .epos) ↔ w = 0x14000000) ∧
    (∀ c : Symbol,
      (decode w = .ok (.push .frame c) ↔ w = 0x20000000 ||| c.setWidth 32) ∧
      (decode w = .ok (.push .poly c) ↔ w = 0x21000000 ||| c.setWidth 32) ∧
      (decode w = .ok (.push .opa c) ↔ w = 0x22000000 ||| c.setWidth 32) ∧
      (decode w = .ok (.push .opb c) ↔ w = 0x23000000 ||| c.setWidth 32)) ∧
    (∀ p : Position, decode w = .ok (.pushp p) ↔ w = 0x30000000 ||| p.setWidth 32) ∧
    (∀ v : BitVec 24,
      (decode w = .ok (.cfgw .sliceEn v) ↔ w = 0x40000000 ||| v.setWidth 32 ∧ v.toNat ≤ 1) ∧
      (decode w = .ok (.cfgw .dispW v) ↔ w = 0x41000000 ||| v.setWidth 32)) ∧
    (decode w = .ok (.hex (.seq .frame)) ↔ w = 0x60000000) ∧
    (decode w = .ok (.hex (.seq .poly)) ↔ w = 0x61000000) ∧
    (decode w = .ok (.hex (.seq .opa)) ↔ w = 0x62000000) ∧
    (decode w = .ok (.hex (.seq .opb)) ↔ w = 0x63000000) ∧
    (decode w = .ok (.hex .crc) ↔ w = 0x65000000) ∧
    (decode w = .ok (.hex .crck) ↔ w = 0x66000000)

/-- R77: exactly the words the rule lists are illegal, the all-zero and the all-ones word among them, and an illegal word
gives STATUS.ERR 6 and changes nothing else. -/
def Obligations.IllegalWordsRaiseIllegalCommand : Prop :=
  (∀ w : Word, IllegalByR77 w ↔ ∀ i, decode w ≠ .ok i) ∧
  IllegalByR77 0x00000000 ∧ IllegalByR77 0xFFFFFFFF ∧
  ∀ (s : State) (w : Word) (rest : List HostInput), s.pending = .command w :: rest → IllegalByR77 w →
    step s = .next { s with err := 6, pending := rest }

/-! ### The step -/

/-- When the next input is a word that decodes to `i`, the step is `i` on the state without that input. -/
def Obligations.StepRunsTheDecodedCommand : Prop :=
  ∀ (s : State) (w : Word) (rest : List HostInput) (i : Instr),
    s.pending = .command w :: rest → decode w = .ok i → step s = exec i { s with pending := rest }

/-- Hardware reset between commands does what the RESET command does (R180), and a block with no input is idle and holds
its registers (R168). That the reset leaves the inputs still to come, and that the idle machine takes a step, is the
model's choice (Log 3, Log 4). -/
def Obligations.HardwareResetAndIdleSteps : Prop :=
  (∀ (s : State) (rest : List HostInput), s.pending = .hardReset :: rest →
    step s = exec .reset { s with pending := rest } ∧
    step s = .next { State.reset with pending := rest }) ∧
  (∀ s : State, s.pending = [] → step s = .next s)

/-- R187: every command ends, whatever the state, and none waits. That a block without input takes a step that changes
nothing, and that hardware reset leaves the inputs still to come, so that every step takes the next input, is the model's
choice (Log 3, Log 4). -/
def Obligations.EveryCommandEnds : Prop :=
  (∀ (i : Instr) (s : State), ∃ t, exec i s = .next t ∧ t.pending = s.pending) ∧
  (∀ s : State, ∃ t, step s = .next t ∧ t.pending = s.pending.tail)

/-- A run over a finite list of inputs ends after that many steps, and nothing changes after it (R189; the idle step is
Log 3). -/
def Obligations.RunEndsWithTheLastInput : Prop :=
  ∀ s : State, ∃ t : State, t.pending = [] ∧
    ∀ n, s.pending.length ≤ n → Sys2Proof.core.run n s = .next t

/-! ### Reset and the legal states -/

/-- R41 and R134: the state after hardware reset and after RESET. -/
def Obligations.ResetValues : Prop :=
  encode .reset = 0x90000000 ∧
  ∀ s : State, ∃ t, exec .reset s = .next t ∧
    ∀ u, (u = t ∨ u = State.reset) →
      u.frame = [] ∧ u.poly = [] ∧ u.opa = [] ∧ u.opb = [] ∧ u.epos = [] ∧
      u.sliceEn = 1 ∧ u.dispW = 15 ∧
      u.crc = none ∧ u.crck = none ∧ u.hexr = none ∧ u.dist = none ∧ u.base = none ∧ u.report = none ∧
      u.err = 0 ∧ vcrc u = false ∧ vhex u = false ∧ vdist u = false ∧ vrep u = false

/-- The reset state is legal. -/
def Obligations.ResetIsLegal : Prop := Legal State.reset

/-- Every step keeps the state legal: the capacities, the pairing of CRC with CRCK and of BASE with REPORT, the forms of
the results, and the codes of STATUS.ERR. -/
def Obligations.EveryStepKeepsLegal : Prop :=
  ∀ s t : State, Legal s → step s = .next t → Legal t

/-- R27: in every legal state each V flag is 1 exactly when its result registers are valid. -/
def Obligations.ValidityFlags : Prop :=
  ∀ s : State, Legal s →
    (vcrc s = true ↔ s.crc.isSome = true) ∧ (vcrc s = true ↔ s.crck.isSome = true) ∧
    (vhex s = true ↔ s.hexr.isSome = true) ∧ (vdist s = true ↔ s.dist.isSome = true) ∧
    (vrep s = true ↔ s.base.isSome = true) ∧ (vrep s = true ↔ s.report.isSome = true)

/-- R37: a host read of an invalid result register gives no value and its V flag reads 0, a host read of a valid one gives
its value; HEX of an invalid source raises InvalidSource. -/
def Obligations.InvalidResultsHaveNoValue : Prop :=
  ∀ s : State,
    (s.crc = none → readReg .crc s = .error .noValue ∧ readReg .vcrc s = .ok (.bit false) ∧
      exec (.hex .crc) s = .next { s with hexr := none, err := 7 }) ∧
    (s.crck = none → readReg .crck s = .error .noValue ∧ readReg .vcrc s = .ok (.bit false) ∧
      exec (.hex .crck) s = .next { s with hexr := none, err := 7 }) ∧
    (s.hexr = none → readReg .hexr s = .error .noValue ∧ readReg .vhex s = .ok (.bit false)) ∧
    (s.dist = none → readReg .dist s = .error .noValue ∧ readReg .vdist s = .ok (.bit false)) ∧
    (s.base = none → readReg .base s = .error .noValue ∧ readReg .vrep s = .ok (.bit false)) ∧
    (s.report = none → readReg .report s = .error .noValue ∧ readReg .vrep s = .ok (.bit false)) ∧
    (∀ c, s.crc = some c → readReg .crc s = .ok (.symbols c)) ∧
    (∀ c, s.crck = some c → readReg .crck s = .ok (.symbols c)) ∧
    (∀ h, s.hexr = some h → readReg .hexr s = .ok (.symbols h)) ∧
    (∀ d, s.dist = some d → readReg .dist s = .ok (.number d)) ∧
    (∀ b, s.base = some b → readReg .base s = .ok (.baseline b)) ∧
    (∀ rows, s.report = some rows → readReg .report s = .ok (.rows rows))

/-! ### Operand loading and control -/

/-- R130: CLR makes its register empty, writes STATUS.ERR and nothing else, and never fails. -/
def Obligations.ClrEmptiesItsRegister : Prop :=
  (∀ x : ClrReg, encode (.clr x) = 0x10000000 ||| (x.sel.setWidth 32 <<< 24)) ∧
  ∀ s : State,
    exec (.clr (.seq .frame)) s = .next { s with frame := [], err := 0 } ∧
    exec (.clr (.seq .poly)) s = .next { s with poly := [], err := 0 } ∧
    exec (.clr (.seq .opa)) s = .next { s with opa := [], err := 0 } ∧
    exec (.clr (.seq .opb)) s = .next { s with opb := [], err := 0 } ∧
    exec (.clr .epos) s = .next { s with epos := [], err := 0 }

/-- R131: PUSH appends the symbol at the highest index of a register that is not full, and changes nothing else but
STATUS.ERR; in a full register it raises Overflow, for every capacity, and never in an unbounded one. -/
def Obligations.PushAppendsOneSymbol : Prop :=
  (∀ (x : SeqReg) (c : Symbol),
    encode (.push x c) = 0x20000000 ||| (x.sel.setWidth 32 <<< 24) ||| c.setWidth 32) ∧
  (∀ (x : SeqReg) (c : Symbol) (s : State),
    exec (.push x c) s = .next (pushSymbol Config.maxLen x c s) ∧
    (Config.maxLen ≠ .bounded (getSeq x s).length → ∃ t, exec (.push x c) s = .next t ∧
      getSeq x t = getSeq x s ++ [c] ∧ t = setSeq x (getSeq x s ++ [c]) { s with err := 0 })) ∧
  (∀ (c : Symbol) (s : State),
    pushSymbol .unbounded .frame c s = { s with frame := s.frame ++ [c], err := 0 } ∧
    pushSymbol .unbounded .poly c s = { s with poly := s.poly ++ [c], err := 0 } ∧
    pushSymbol .unbounded .opa c s = { s with opa := s.opa ++ [c], err := 0 } ∧
    pushSymbol .unbounded .opb c s = { s with opb := s.opb ++ [c], err := 0 }) ∧
  (∀ (n : Nat) (x : SeqReg) (c : Symbol) (s : State),
    ((getSeq x s).length = n → pushSymbol (.bounded n) x c s = { s with err := 5 }) ∧
    ((getSeq x s).length ≠ n → pushSymbol (.bounded n) x c s = pushSymbol .unbounded x c s))

/-- R132: PUSHP appends the position to a list that is not full, and changes nothing else but STATUS.ERR; to a full list it
raises Overflow, for every capacity. -/
def Obligations.PushpAppendsOnePosition : Prop :=
  (∀ p : Position, encode (.pushp p) = 0x30000000 ||| p.setWidth 32) ∧
  (∀ (p : Position) (s : State),
    exec (.pushp p) s = .next (pushPosition Config.maxPos p s) ∧
    (Config.maxPos ≠ .bounded s.epos.length →
      exec (.pushp p) s = .next { s with epos := s.epos ++ [p], err := 0 })) ∧
  (∀ (n : Nat) (p : Position) (s : State),
    (s.epos.length = n → pushPosition (.bounded n) p s = { s with err := 5 }) ∧
    (s.epos.length ≠ n → pushPosition (.bounded n) p s = { s with epos := s.epos ++ [p], err := 0 }))

/-- R133: CFGW writes one field, writes STATUS.ERR and nothing else, and never fails on a legal value. -/
def Obligations.CfgwWritesOneField : Prop :=
  (∀ (f : CfgField) (v : BitVec 24),
    encode (.cfgw f v) = 0x40000000 ||| (f.index.setWidth 32 <<< 24) ||| v.setWidth 32) ∧
  ∀ s : State,
    exec (.cfgw .sliceEn 0) s = .next { s with sliceEn := 0, err := 0 } ∧
    exec (.cfgw .sliceEn 1) s = .next { s with sliceEn := 1, err := 0 } ∧
    ∀ v : BitVec 24, exec (.cfgw .dispW v) s = .next { s with dispW := v, err := 0 }

/-- LOAD leaves exactly its string in its register, and LOADP exactly its list in EPOS, whatever was there, when they fit
(R81, R186): every command of the expansion succeeds, and nothing else changes. -/
def Obligations.LoadReplacesTheOperand : Prop :=
  (∀ (s : State) (x : SeqReg) (cs : SymSeq) (rest : List HostInput), fits Config.maxLen cs.length →
    s.pending = issue (expandLoad x cs) ++ rest →
    Sys2Proof.core.run (cs.length + 1) s = .next (setSeq x cs { s with err := 0, pending := rest })) ∧
  (∀ (s : State) (ps : List Position) (rest : List HostInput), fits Config.maxPos ps.length →
    s.pending = issue (expandLoadp ps) ++ rest →
    Sys2Proof.core.run (ps.length + 1) s = .next { s with epos := ps, err := 0, pending := rest })

/-! ### The notation and the engine -/

/-- R16: `strip` drops the symbols before the least index that does not hold `'0'`, and only those; of a bit sequence it
leaves the empty sequence or one that starts with `'1'` (the spec derives this last clause). -/
def Obligations.StripDropsTheLeadingZeros : Prop :=
  ∀ p : SymSeq, ∃ z, z ≤ p.length ∧ strip p = slice p z p.length ∧
    (∀ j, j < z → p[j]? = some sym0) ∧ p[z]? ≠ some sym0 ∧
    (isBits p = true → strip p = [] ∨ (strip p).head? = some sym1)

/-- R17: `pad` puts zeros on the left up to the width and never truncates. -/
def Obligations.PadExtendsOnTheLeft : Prop :=
  ∀ (x : SymSeq) (w : Nat),
    (pad x w).length = max x.length w ∧ (w ≤ x.length → pad x w = x) ∧
    (∀ j, j < max x.length w - x.length → (pad x w)[j]? = some sym0) ∧
    (∀ j, (pad x w)[max x.length w - x.length + j]? = x[j]?)

/-- R18: `flip` changes the symbol at its index and nothing else. -/
def Obligations.FlipChangesOneSymbol : Prop :=
  ∀ (s : SymSeq) (p : Nat), isBits s = true → p < s.length →
    (flipAt s p).length = s.length ∧
    (s[p]? = some sym0 → (flipAt s p)[p]? = some sym1) ∧
    (s[p]? = some sym1 → (flipAt s p)[p]? = some sym0) ∧
    (∀ j, j ≠ p → (flipAt s p)[j]? = s[j]?)

/-- R19: `value` is the sum of the bits weighted by powers of two, leftmost highest. -/
def Obligations.ValueIsTheBinaryNumber : Prop :=
  (∀ s : SymSeq, value s =
    ∑ i ∈ Finset.range s.length, bit (s.getD i sym0) * 2 ^ (s.length - 1 - i)) ∧
  value [] = 0

/-- R92: the slicer drops the final bit of a frame strictly longer than 32 bits when it is enabled, and else nothing. -/
def Obligations.SlicerDropsTheDelimiter : Prop :=
  ∀ (f : SymSeq) (en : BitVec 1),
    (en = 1 → 32 < f.length →
      work f en = slice f 0 (f.length - 16) ++ slice f (f.length - 16) (f.length - 1) ∧
      work f en = slice f 0 (f.length - 1) ∧ (work f en).length = f.length - 1) ∧
    (en = 1 → f.length ≤ 32 → work f en = f) ∧
    (en = 0 → work f en = f)

/-- R93: the buffer starts as the input and `k - 1` zeros; each pivot whose bit is `'1'` XORs the polynomial into the window
at the pivot, any other pivot changes nothing; the division is all `n` pivots, left to right. -/
def Obligations.DivisionPivotByPivot : Prop :=
  ∀ w sp : SymSeq, w ≠ [] → ValidDivisor sp →
    divideTo w sp 0 = w ++ rep sym0 (sp.length - 1) ∧
    divide w sp = divideTo w sp w.length ∧
    ∀ i, i < w.length →
      (divideTo w sp (i + 1)).length = w.length + sp.length - 1 ∧
      ((divideTo w sp i)[i]? ≠ some sym1 → divideTo w sp (i + 1) = divideTo w sp i) ∧
      ((divideTo w sp i)[i]? = some sym1 → ∀ j, (divideTo w sp (i + 1)).getD j sym0 =
        if i ≤ j ∧ j < i + sp.length then
          xorSym ((divideTo w sp i).getD j sym0) (sp.getD (j - i) sym0)
        else (divideTo w sp i).getD j sym0)

/-- The invariant the spec derives in R96: the bits up to the last pivot are zeros, so the wide view is `'0'` and the
remainder, with the same value, and two wide views have the distance of their remainders. -/
def Obligations.DivisionClearsItsPivots : Prop :=
  ∀ w sp : SymSeq, isBits w = true → w ≠ [] → ValidDivisor sp →
    (∀ m, m ≤ w.length → ∀ j, j < m → (divideTo w sp m)[j]? = some sym0) ∧
    wideRemainder w sp = sym0 :: remainder w sp ∧
    value (wideRemainder w sp) = value (remainder w sp) ∧
    ∀ w' : SymSeq, isBits w' = true → w' ≠ [] →
      hamming (wideRemainder w sp) (wideRemainder w' sp) = hamming (remainder w sp) (remainder w' sp)

/-! ### CRC -/

/-- R95: the CRC command, its results and its errors in order; nothing else changes. -/
def Obligations.CrcCommand : Prop :=
  encode .crc = 0x50000000 ∧
  ∀ s : State,
    ((isBits s.poly = false ∨ isBits s.frame = false) →
      exec .crc s = .next { s with crc := none, crck := none, err := 2 }) ∧
    (isBits s.poly = true → isBits s.frame = true →
      ((strip s.poly).length < 2 →
        exec .crc s = .next { s with crc := none, crck := none, err := 1 }) ∧
      (2 ≤ (strip s.poly).length →
        (s.frame.length = 0 →
          exec .crc s = .next { s with crc := none, crck := none, err := 4 }) ∧
        (s.frame.length ≠ 0 →
          let sp := strip s.poly
          let w := work s.frame s.sliceEn
          let buf := divide w sp
          exec .crc s = .next { s with
            crc := some (slice buf w.length (w.length + sp.length - 1)),
            crck := some (slice buf (w.length - 1) (w.length + sp.length - 1)),
            err := 0 })))

/-- The length law the spec derives in R99: CRC has `k - 1` bits and CRCK has `k`, whatever the frame. -/
def Obligations.CrcResultLengths : Prop :=
  ∀ s : State, ValidCrcOperands s.frame s.poly → ∃ t c ck, exec .crc s = .next t ∧ t.err = 0 ∧
    t.crc = some c ∧ t.crck = some ck ∧ isBits c = true ∧
    c.length = (strip s.poly).length - 1 ∧ ck.length = (strip s.poly).length

/-- R98: the results of CRC depend on FRAME, POLY and SLICE_EN alone, and CRC twice in a row gives the same state. -/
def Obligations.CrcDependsOnItsOperandsOnly : Prop :=
  ∀ s t : State, s.frame = t.frame → s.poly = t.poly → s.sliceEn = t.sliceEn →
    ∃ s' t', exec .crc s = .next s' ∧ exec .crc t = .next t' ∧
      s'.crc = t'.crc ∧ s'.crck = t'.crck ∧ s'.err = t'.err ∧ exec .crc s' = .next s'

/-- R104 (b): the remainder is the remainder of `W(x) * x^(k-1)` divided by `G(x)` over GF(2). -/
def Obligations.CrcIsThePolynomialRemainder : Prop :=
  ∀ (w sp : SymSeq) (W G R : Polynomial (ZMod 2)),
    isBits w = true → w ≠ [] → ValidDivisor sp →
    IsPolynomialOf w W → IsPolynomialOf sp G → IsPolynomialOf (remainder w sp) R →
    R = (W * Polynomial.X ^ (sp.length - 1)) %ₘ G

/-- R104 (a): the remainder is linear. -/
def Obligations.RemainderIsLinear : Prop :=
  ∀ a b sp : SymSeq, isBits a = true → isBits b = true → a ≠ [] → a.length = b.length → ValidDivisor sp →
    remainder (xorSeq a b) sp = xorSeq (remainder a sp) (remainder b sp)

/-- R104 (c) and R90: zeros on the left of the working input do not change the remainder, nor, where the slicer treats the
two frames alike, zeros on the left of a non-empty frame the results of CRC; zeros on the left of the polynomial change
nothing that CRC or ANALYZE leaves. -/
def Obligations.LeadingZerosChangeNothing : Prop :=
  (∀ (z : Nat) (w sp : SymSeq), isBits w = true → w ≠ [] → ValidDivisor sp →
    remainder (rep sym0 z ++ w) sp = remainder w sp) ∧
  (∀ (z : Nat) (s : State), s.frame ≠ [] →
    (s.sliceEn = 0 ∨ z + s.frame.length ≤ 32 ∨ 32 < s.frame.length) →
    ∃ t u, exec .crc s = .next t ∧ exec .crc { s with frame := rep sym0 z ++ s.frame } = .next u ∧
      u.crc = t.crc ∧ u.crck = t.crck ∧ u.err = t.err) ∧
  (∀ (z : Nat) (p : SymSeq), strip (rep sym0 z ++ p) = strip p) ∧
  (∀ (z : Nat) (s : State), ∃ t u, exec .crc s = .next t ∧ exec .analyze s = .next u ∧
    exec .crc { s with poly := rep sym0 z ++ s.poly } = .next { t with poly := rep sym0 z ++ s.poly } ∧
    exec .analyze { s with poly := rep sym0 z ++ s.poly } = .next { u with poly := rep sym0 z ++ s.poly })

/-- R104 (d): a sequence followed by its own remainder divides to zero; so a sliced frame of data, the data's 15-bit CRC and
a delimiter gives a CRC of 15 zeros. -/
def Obligations.AppendedRemainderDividesToZero : Prop :=
  (∀ d sp : SymSeq, isBits d = true → d ≠ [] → ValidDivisor sp →
    remainder (d ++ remainder d sp) sp = rep sym0 (sp.length - 1)) ∧
  (∀ (s : State) (d : SymSeq) (x : Symbol), s.sliceEn = 1 → isBits d = true → isBit x = true →
    17 ≤ d.length → isBits s.poly = true → (strip s.poly).length = 16 →
    s.frame = d ++ remainder d (strip s.poly) ++ [x] →
    ∃ t, exec .crc s = .next t ∧ t.err = 0 ∧ t.crc = some (rep sym0 15))

/-- R104 (e): the CRC of a sliced frame does not depend on the delimiter. -/
def Obligations.SlicedCrcIgnoresTheDelimiter : Prop :=
  ∀ (s : State) (d : SymSeq) (x y : Symbol), s.sliceEn = 1 → 32 ≤ d.length →
    isBit x = true → isBit y = true →
    ∃ t u, exec .crc { s with frame := d ++ [x] } = .next t ∧
      exec .crc { s with frame := d ++ [y] } = .next u ∧
      t.crc = u.crc ∧ t.crck = u.crck ∧ t.err = u.err

/-! ### HEX -/

/-- R102: the literal is `0x`, then the digits of the number in base 16, most significant first, lower case, as few as
possible. That the digit characters have their ASCII codes is the spec's sentence from general knowledge (G2; Log 6). -/
def Obligations.HexLiteralOfANumber : Prop :=
  ∀ v : Nat, ∃ ds : SymSeq, hexstr v = sym0 :: 0x78 :: ds ∧
    ds.length = max 1 ((Nat.size v + 3) / 4) ∧
    (∀ i, i < ds.length → ds[i]? =
      ([0x30, 0x31, 0x32, 0x33, 0x34, 0x35, 0x36, 0x37, 0x38, 0x39, 0x61, 0x62, 0x63, 0x64, 0x65, 0x66] :
        SymSeq)[v / 16 ^ (ds.length - 1 - i) % 16]?) ∧
    v < 16 ^ ds.length ∧ (v ≠ 0 → ds.head? ≠ some sym0) ∧ (v = 0 → ds = [sym0])

/-- R101: the HEX command on each source, its result and its errors in order; nothing else changes. -/
def Obligations.HexCommand : Prop :=
  (∀ x : HexReg, encode (.hex x) = 0x60000000 ||| (x.sel.setWidth 32 <<< 24)) ∧
  ∀ s : State,
    hexSource .crc s = s.crc ∧ hexSource .crck s = s.crck ∧
    (∀ r, hexSource (.seq r) s = some (getSeq r s)) ∧
    ∀ x : HexReg,
      (hexSource x s = none → exec (.hex x) s = .next { s with hexr := none, err := 7 }) ∧
      ∀ b, hexSource x s = some b →
        (isBits b = false → exec (.hex x) s = .next { s with hexr := none, err := 2 }) ∧
        (isBits b = true → b.length = 0 → exec (.hex x) s = .next { s with hexr := none, err := 4 }) ∧
        (isBits b = true → b.length ≠ 0 →
          exec (.hex x) s = .next { s with hexr := some (hexstr (value b)), err := 0 })

/-! ### HAM -/

/-- R112: the distance is the number of indexes at which two sequences of equal length differ. -/
def Obligations.HammingCountsTheDifferences : Prop :=
  (∀ a b : SymSeq, a.length = b.length →
    hamming a b = ((Finset.range a.length).filter (fun i => a[i]? ≠ b[i]?)).card ∧
    hamming a b ≤ a.length) ∧
  hamming [] [] = 0

/-- R114: the laws of the comparator (the spec derives the last three). -/
def Obligations.HammingLaws : Prop :=
  (∀ x : SymSeq, hamming x x = 0) ∧
  (∀ a b : SymSeq, a.length = b.length →
    hamming a b = hamming b a ∧ (hamming a b = 0 ↔ a = b) ∧
    (isBits a = true → isBits b = true → hamming a b = (xorSeq a b).count sym1))

/-- R113: the HAM command, its result and its errors in order; nothing else changes. -/
def Obligations.HamCommand : Prop :=
  encode .ham = 0x70000000 ∧
  ∀ s : State,
    ((isBits s.opa = false ∨ isBits s.opb = false) →
      exec .ham s = .next { s with dist := none, err := 2 }) ∧
    (isBits s.opa = true → isBits s.opb = true → s.opa.length ≠ s.opb.length →
      exec .ham s = .next { s with dist := none, err := 3 }) ∧
    (isBits s.opa = true → isBits s.opb = true → s.opa.length = s.opb.length →
      exec .ham s = .next { s with dist := some (hamming s.opa s.opb), err := 0 })

/-! ### ANALYZE -/

/-- R120, with R116, R117 and R118 (and the names of R115): the ANALYZE command, its baseline, its rows and its errors in order; nothing else
changes. -/
def Obligations.AnalyzeCommand : Prop :=
  encode .analyze = 0x80000000 ∧
  ∀ s : State,
    ((isBits s.poly = false ∨ isBits s.frame = false) →
      exec .analyze s = .next { s with base := none, report := none, err := 2 }) ∧
    (isBits s.poly = true → isBits s.frame = true → (strip s.poly).length < 2 →
      exec .analyze s = .next { s with base := none, report := none, err := 1 }) ∧
    (isBits s.poly = true → isBits s.frame = true → 2 ≤ (strip s.poly).length → s.frame.length = 0 →
      exec .analyze s = .next { s with base := none, report := none, err := 4 }) ∧
    (ValidCrcOperands s.frame s.poly →
      let crcOfFrame := fun f : SymSeq =>
        slice (divide (work f s.sliceEn) (strip s.poly)) (work f s.sliceEn).length
          ((work f s.sliceEn).length + (strip s.poly).length - 1)
      let base := pad (crcOfFrame s.frame) s.dispW.toNat
      ∃ rows, exec .analyze s =
          .next { s with base := some { crc := base, dist := 0 }, report := some rows, err := 0 } ∧
        rows.map ReportRow.pos = s.epos.filter (fun p => p.toNat < s.frame.length) ∧
        ∀ r ∈ rows, r.cframe = flipAt s.frame r.pos.toNat ∧
          r.ccrc = pad (crcOfFrame r.cframe) s.dispW.toNat ∧ r.dist = hamming base r.ccrc)

/-- R28: a skipped position is no error; its only trace is that REPORT has fewer rows than EPOS has entries. ANALYZE leaves
the same BASE, REPORT and STATUS.ERR when the positions beyond the frame are taken out of EPOS, and no other register
changes. -/
def Obligations.SkippedPositionsLeaveNoTrace : Prop :=
  ∀ s : State, ValidCrcOperands s.frame s.poly → ∃ t u rows, exec .analyze s = .next t ∧
    t.err = 0 ∧ t.report = some rows ∧ rows.length ≤ s.epos.length ∧
    (rows.length < s.epos.length ↔ ∃ p ∈ s.epos, s.frame.length ≤ p.toNat) ∧
    { t with base := s.base, report := s.report, err := s.err } = s ∧
    exec .analyze { s with epos := s.epos.filter (fun p => decide (p.toNat < s.frame.length)) } = .next u ∧
    u.base = t.base ∧ u.report = t.report ∧ u.err = t.err

/-- The lengths the spec derives in R119: the baseline and every row's CRC have `max(k - 1, DISP_W)` bits, every corrupted
frame has the frame's length, and ANALYZE never raises LengthMismatch. -/
def Obligations.AnalyzeLengthsAgree : Prop :=
  ∀ s : State, ∃ t, exec .analyze s = .next t ∧ t.err ≠ 3 ∧
    ∀ b rows, t.base = some b → t.report = some rows →
      b.crc.length = max ((strip s.poly).length - 1) s.dispW.toNat ∧
      ∀ r ∈ rows, r.ccrc.length = b.crc.length ∧ r.cframe.length = s.frame.length ∧
        isBits r.cframe = true

/-- R120 (f), which the spec derives: the distances do not depend on the display width. -/
def Obligations.DistancesIgnoreTheDisplayWidth : Prop :=
  ∀ (s : State) (v : BitVec 24), ValidCrcOperands s.frame s.poly →
    ∃ t u rows rows', exec .analyze s = .next t ∧ exec .analyze { s with dispW := v } = .next u ∧
      t.report = some rows ∧ u.report = some rows' ∧
      rows.map ReportRow.dist = rows'.map ReportRow.dist

/-- R120 (d): with slicing in force a flip of the delimiter gives the baseline's CRC and distance 0. -/
def Obligations.DelimiterFlipIsUndetected : Prop :=
  ∀ s : State, ValidCrcOperands s.frame s.poly → s.sliceEn = 1 → 32 < s.frame.length →
    ∃ t b rows, exec .analyze s = .next t ∧ t.base = some b ∧ t.report = some rows ∧
      ∀ r ∈ rows, r.pos.toNat = s.frame.length - 1 → r.ccrc = b.crc ∧ r.dist = 0

/-- R124, which the spec derives: a single flip the slicer keeps is detected exactly when the polynomial has at least two
ones; a polynomial with one `'1'` gives all-zero CRCs and detects nothing. -/
def Obligations.SingleFlipDetection : Prop :=
  ∀ s : State, ValidCrcOperands s.frame s.poly →
    ∃ t rows, exec .analyze s = .next t ∧ t.report = some rows ∧
      (∀ r ∈ rows, r.pos.toNat < (work s.frame s.sliceEn).length →
        (1 ≤ r.dist ↔ 2 ≤ (strip s.poly).count sym1)) ∧
      ((strip s.poly).count sym1 = 1 →
        (∀ r ∈ rows, r.dist = 0) ∧
        ∃ u, exec .crc s = .next u ∧ u.crc = some (rep sym0 ((strip s.poly).length - 1)))

/-! ### The document's four functions -/

/-- The correspondence the spec derives in R82, for operands that fit: each function's command sequence ends with the
function's value in the result register, or with the function's error and the result register invalid. -/
def Obligations.DocumentFunctionsAsCommandSequences : Prop :=
  (∀ (s : State) (f p : SymSeq) (rest : List HostInput),
    fits Config.maxLen f.length → fits Config.maxLen p.length →
    s.pending = issue (expandLoad .frame f ++ expandLoad .poly p ++ [.crc]) ++ rest →
    ∃ t, Sys2Proof.core.run (f.length + p.length + 3) s = .next t ∧ t.pending = rest ∧
      match computeCrc s.sliceEn f p with
      | .ok r => t.err = 0 ∧ t.crc = some r.1 ∧ t.crck = some r.2
      | .error e => t.err = errCode e ∧ t.crc = none ∧ t.crck = none) ∧
  (∀ (s : State) (b : SymSeq) (rest : List HostInput), fits Config.maxLen b.length →
    s.pending = issue (expandLoad .opa b ++ [.hex (.seq .opa)]) ++ rest →
    ∃ t, Sys2Proof.core.run (b.length + 2) s = .next t ∧ t.pending = rest ∧
      match binaryToHex b with
      | .ok h => t.err = 0 ∧ t.hexr = some h
      | .error e => t.err = errCode e ∧ t.hexr = none) ∧
  (∀ (s : State) (a b : SymSeq) (rest : List HostInput),
    fits Config.maxLen a.length → fits Config.maxLen b.length →
    s.pending = issue (expandLoad .opa a ++ expandLoad .opb b ++ [.ham]) ++ rest →
    ∃ t, Sys2Proof.core.run (a.length + b.length + 3) s = .next t ∧ t.pending = rest ∧
      match hammingDistance a b with
      | .ok d => t.err = 0 ∧ t.dist = some d
      | .error e => t.err = errCode e ∧ t.dist = none) ∧
  (∀ (s : State) (f p : SymSeq) (ps : List Position) (rest : List HostInput),
    fits Config.maxLen f.length → fits Config.maxLen p.length → fits Config.maxPos ps.length →
    s.pending = issue (expandLoad .frame f ++ expandLoad .poly p ++ expandLoadp ps ++ [.analyze]) ++ rest →
    ∃ t, Sys2Proof.core.run (f.length + p.length + ps.length + 4) s = .next t ∧ t.pending = rest ∧
      match analyzeErrors s.sliceEn s.dispW.toNat f p ps with
      | .ok r => t.err = 0 ∧ t.base = some r.1 ∧ t.report = some r.2
      | .error e => t.err = errCode e ∧ t.base = none ∧ t.report = none)

/-! ### Errors, and rules over all commands -/

/-- R160: a command that raises an error makes its own result registers invalid, writes STATUS.ERR, and changes nothing
else; an illegal word makes no result register invalid. -/
def Obligations.ErrorEffect : Prop :=
  (∀ (i : Instr) (s t : State), exec i s = .next t → t.err ≠ 0 →
    match owns i with
    | none => t = { s with err := t.err }
    | some .crc => t = { s with crc := none, crck := none, err := t.err }
    | some .hex => t = { s with hexr := none, err := t.err }
    | some .ham => t = { s with dist := none, err := t.err }
    | some .analyze => t = { s with base := none, report := none, err := t.err }) ∧
  (∀ (s : State) (w : Word) (rest : List HostInput), s.pending = .command w :: rest →
    (∀ i, decode w ≠ .ok i) → step s = .next { s with err := 6, pending := rest })

/-- R170: every command either raises an error or ends with STATUS.ERR 0. A command's own result registers are valid after it
exactly when it succeeded, and they are wholly written: nothing that the command leaves depends on what they held before. -/
def Obligations.SuccessLeavesValidResults : Prop :=
  (∀ (i : Instr) (s : State), ∃ t, exec i s = .next t ∧ (t.err = 0 ∨ ∃ e, t = raise (owns i) e s)) ∧
  (∀ (i : Instr) (s : State) (g : ResultGroup), owns i = some g →
    ∃ t, exec i s = .next t ∧ (t.err = 0 ↔ groupValid g t = true)) ∧
  (∀ (s : State) (c ck : Result SymSeq), exec .crc { s with crc := c, crck := ck } = exec .crc s) ∧
  (∀ (x : HexReg) (s : State) (h : Result SymSeq), exec (.hex x) { s with hexr := h } = exec (.hex x) s) ∧
  (∀ (s : State) (d : Result Nat), exec .ham { s with dist := d } = exec .ham s) ∧
  (∀ (s : State) (b : Result Baseline) (rows : Result (List ReportRow)),
    exec .analyze { s with base := b, report := rows } = exec .analyze s)

/-- R159: codes 1 to 7 of STATUS.ERR with the commands that raise them and the cause of each; 8 to 15 are never written.
Claimed from the code to its cause only: when each error is raised is said in the statements of the commands, and code 0 in
SuccessLeavesValidResults. -/
def Obligations.ErrorCodesAndCauses : Prop :=
  (∀ (s : State) (w : Word) (rest : List HostInput) (e : Illegal), s.pending = .command w :: rest →
    decode w = .error e → ∃ t, step s = .next t ∧ t.err = 6) ∧
  ∀ (i : Instr) (s t : State), exec i s = .next t →
    (t.err = 1 → (i = .crc ∨ i = .analyze) ∧ (strip s.poly).length < 2) ∧
    (t.err = 2 →
      ((i = .crc ∨ i = .analyze) ∧ (isBits s.frame = false ∨ isBits s.poly = false)) ∨
      (∃ x b, i = .hex x ∧ hexSource x s = some b ∧ isBits b = false) ∨
      (i = .ham ∧ (isBits s.opa = false ∨ isBits s.opb = false))) ∧
    (t.err = 3 → i = .ham ∧ s.opa.length ≠ s.opb.length) ∧
    (t.err = 4 →
      ((i = .crc ∨ i = .analyze) ∧ s.frame = []) ∨ (∃ x, i = .hex x ∧ hexSource x s = some [])) ∧
    (t.err = 5 →
      (∃ x c, i = .push x c ∧ Config.maxLen = .bounded (getSeq x s).length) ∨
      (∃ p, i = .pushp p ∧ Config.maxPos = .bounded s.epos.length)) ∧
    t.err ≠ 6 ∧
    (t.err = 7 → (i = .hex .crc ∧ s.crc = none) ∨ (i = .hex .crck ∧ s.crck = none)) ∧
    t.err.toNat < 8

/-- R163: STATUS.ERR is overwritten by the next command and alters no command: each ends in the same state whatever
STATUS.ERR was. -/
def Obligations.ErrorsDoNotAlterLaterCommands : Prop :=
  (∀ (i : Instr) (s : State) (e : BitVec 4), exec i { s with err := e } = exec i s) ∧
  (∀ (s : State) (e : BitVec 4), s.pending ≠ [] → step { s with err := e } = step s)

/-- R23: no operation command changes an operand register; operand registers change only by CLR, PUSH, PUSHP and RESET;
the operations write only result registers and STATUS. -/
def Obligations.OperationsKeepTheirOperands : Prop :=
  (∀ (i : Instr) (s t : State), exec i s = .next t →
    (i = .crc ∨ (∃ x, i = .hex x) ∨ i = .ham ∨ i = .analyze) →
    SameOperands s t ∧ SameConfig s t ∧ t.pending = s.pending) ∧
  (∀ (i : Instr) (s t : State), exec i s = .next t → ¬ SameOperands s t →
    (∃ x, i = .clr x) ∨ (∃ x c, i = .push x c) ∨ (∃ p, i = .pushp p) ∨ i = .reset)

/-- R185: a result register keeps its value until its own command runs or the block is reset; changing an operand register
or CFG leaves every result as it is. -/
def Obligations.StaleResultsStay : Prop :=
  (∀ (i : Instr) (s t : State), exec i s = .next t → i ≠ .reset →
    (owns i ≠ some .crc → t.crc = s.crc ∧ t.crck = s.crck) ∧
    (owns i ≠ some .hex → t.hexr = s.hexr) ∧
    (owns i ≠ some .ham → t.dist = s.dist) ∧
    (owns i ≠ some .analyze → t.base = s.base ∧ t.report = s.report)) ∧
  (∀ (i : Instr) (s t : State), exec i s = .next t →
    ((∃ x, i = .clr x) ∨ (∃ x c, i = .push x c) ∨ (∃ p, i = .pushp p) ∨ (∃ f v, i = .cfgw f v)) →
    SameResults s t)

/-- R40: two commands of the same word in the same register state give the same registers afterwards; nothing else, not
the inputs still to come, changes a result. -/
def Obligations.NoHiddenState : Prop :=
  ∀ (i : Instr) (s t : State), { s with pending := [] } = { t with pending := [] } →
    ∃ u v, exec i s = .next u ∧ exec i t = .next v ∧
      { u with pending := [] } = { v with pending := [] }

/-! ### The host's reads -/

/-- R135: between commands the host can read every register whole: operands, configuration, results and STATUS; an invalid
result register gives no value. That a read gives no new state is the model's form of "Reading changes nothing" (Log 7). -/
def Obligations.HostReadsEveryRegister : Prop :=
  ∀ s : State,
    readReg (.seq .frame) s = .ok (.symbols s.frame) ∧ readReg (.seq .poly) s = .ok (.symbols s.poly) ∧
    readReg (.seq .opa) s = .ok (.symbols s.opa) ∧ readReg (.seq .opb) s = .ok (.symbols s.opb) ∧
    readReg .epos s = .ok (.positions s.epos) ∧
    (s.sliceEn = 0 → readReg .sliceEn s = .ok (.bit false)) ∧
    (s.sliceEn = 1 → readReg .sliceEn s = .ok (.bit true)) ∧
    readReg .dispW s = .ok (.width s.dispW) ∧ readReg .err s = .ok (.code s.err) ∧
    readReg .vcrc s = .ok (.bit (s.crc.isSome && s.crck.isSome)) ∧
    readReg .vhex s = .ok (.bit s.hexr.isSome) ∧ readReg .vdist s = .ok (.bit s.dist.isSome) ∧
    readReg .vrep s = .ok (.bit (s.base.isSome && s.report.isSome)) ∧
    (readReg .crc s = match s.crc with | some c => .ok (.symbols c) | none => .error .noValue) ∧
    (readReg .crck s = match s.crck with | some c => .ok (.symbols c) | none => .error .noValue) ∧
    (readReg .hexr s = match s.hexr with | some h => .ok (.symbols h) | none => .error .noValue) ∧
    (readReg .dist s = match s.dist with | some d => .ok (.number d) | none => .error .noValue) ∧
    (readReg .base s = match s.base with | some b => .ok (.baseline b) | none => .error .noValue) ∧
    (readReg .report s = match s.report with | some r => .ok (.rows r) | none => .error .noValue)
end

