-- ==== Sys2Proof/Laws/Operands.lean ====
section
/-! SUPPORT. Symbols, sequences and the operands made of them (spec/00_scope.md R12 to R19). -/

namespace Sys2Proof.Machine

theorem isBit_iff (c : Symbol) : isBit c = true ↔ c = sym0 ∨ c = sym1 := by simp [isBit]

theorem sym0_ne_sym1 : sym0 ≠ sym1 := by decide

@[simp] theorem isBits_nil : isBits [] = true := rfl

@[simp] theorem isBits_cons (c : Symbol) (s : SymSeq) :
    isBits (c :: s) = true ↔ isBit c = true ∧ isBits s = true := by simp [isBits]

@[simp] theorem isBits_append (s t : SymSeq) :
    isBits (s ++ t) = true ↔ isBits s = true ∧ isBits t = true := by simp [isBits]

theorem isBits_iff (s : SymSeq) : isBits s = true ↔ ∀ c ∈ s, c = sym0 ∨ c = sym1 := by
  simp [isBits, isBit_iff]

theorem isBits_rep0 (n : Nat) : isBits (rep sym0 n) = true := by
  rw [isBits_iff]
  intro c hc
  exact .inl (List.eq_of_mem_replicate hc)

theorem isBits_take (s : SymSeq) (n : Nat) (h : isBits s = true) : isBits (s.take n) = true := by
  rw [isBits_iff] at *
  exact fun c hc => h c (List.mem_of_mem_take hc)

theorem isBits_drop (s : SymSeq) (n : Nat) (h : isBits s = true) : isBits (s.drop n) = true := by
  rw [isBits_iff] at *
  exact fun c hc => h c (List.mem_of_mem_drop hc)

theorem isBits_slice (s : SymSeq) (a b : Nat) (h : isBits s = true) : isBits (slice s a b) = true :=
  isBits_drop _ _ (isBits_take _ _ h)

/-- The XOR of two symbols is a bit. -/
theorem isBit_xorSym (a b : Symbol) : isBit (xorSym a b) = true := by
  unfold xorSym sym
  split <;> decide

@[simp] theorem length_rep (c : Symbol) (n : Nat) : (rep c n).length = n := by simp [rep]

@[simp] theorem length_slice (s : SymSeq) (a b : Nat) : (slice s a b).length = min b s.length - a := by
  simp [slice]

theorem slice_zero (s : SymSeq) (b : Nat) : slice s 0 b = s.take b := by simp [slice]

theorem slice_to_end (s : SymSeq) (a : Nat) : slice s a s.length = s.drop a := by simp [slice]

/-- Two slices that meet are one slice. -/
theorem slice_append_slice (s : SymSeq) (a b c : Nat) (hab : a ≤ b) (hbc : b ≤ c) :
    slice s a b ++ slice s b c = slice s a c := by
  apply List.ext_getElem?
  intro i
  simp only [slice, List.getElem?_append, List.getElem?_drop, List.getElem?_take, List.length_drop,
    List.length_take]
  by_cases h : i < min b s.length - a
  · rw [if_pos h, if_pos (by omega), if_pos (by omega)]
  · rw [if_neg h]
    by_cases h2 : a + i < c
    · rw [if_pos h2]
      by_cases h3 : b ≤ s.length
      · rw [if_pos (by omega)]
        congr 1
        omega
      · have e : s[a + i]? = none := List.getElem?_eq_none (by omega)
        rw [e]
        split
        · exact List.getElem?_eq_none (by omega)
        · rfl
    · rw [if_neg h2, if_neg (by omega)]

@[simp] theorem length_pad (x : SymSeq) (w : Nat) : (pad x w).length = max x.length w := by
  simp only [pad, List.length_append, length_rep]
  omega

theorem isBits_pad (x : SymSeq) (w : Nat) (h : isBits x = true) : isBits (pad x w) = true := by
  rw [pad, isBits_append]
  exact ⟨isBits_rep0 _, h⟩

@[simp] theorem length_flip (s : SymSeq) (p : Nat) : (flipAt s p).length = s.length := by
  simp only [flipAt, List.length_append, List.length_map, length_slice]
  omega

/-- What `flipAt` leaves at every index (R18). -/
theorem flip_getElem? (s : SymSeq) (p i : Nat) :
    (flipAt s p)[i]? = if i = p then (s[i]?).map flipSym else s[i]? := by
  by_cases hl : i < s.length
  · rw [flipAt, slice_zero, slice_to_end]
    simp only [slice, List.getElem?_append, List.length_take, List.getElem?_take, List.length_map,
      List.length_drop, List.getElem?_map, List.getElem?_drop]
    rcases Nat.lt_trichotomy i p with h | h | h
    · rw [if_pos (by omega), if_pos h, if_neg (by omega)]
    · subst h
      rw [if_neg (by omega), if_pos (by omega), if_pos (by omega), if_pos rfl]
      congr 2
      omega
    · rw [if_neg (by omega), if_neg (by omega), if_neg (by omega)]
      congr 1
      omega
  · have e : s[i]? = none := List.getElem?_eq_none (by omega)
    rw [e, List.getElem?_eq_none (by rw [length_flip]; omega)]
    simp

/-- The value of a sequence with one more symbol on the left (R19). -/
theorem value_foldl (s : SymSeq) (v : Nat) :
    s.foldl (fun v c => 2 * v + bit c) v = v * 2 ^ s.length + value s := by
  induction s generalizing v with
  | nil => simp [value]
  | cons c s ih =>
    rw [value, List.foldl_cons, List.foldl_cons, ih, ih (2 * 0 + bit c), List.length_cons]
    ring

theorem value_cons (c : Symbol) (s : SymSeq) : value (c :: s) = bit c * 2 ^ s.length + value s := by
  have h := value_foldl s (2 * 0 + bit c)
  simpa [value] using h

end Sys2Proof.Machine
end

