-- ==== Sys2Proof/Laws/Engine.lean ====
section
/-! SUPPORT. The buffer of the division (spec/40_crc_engine.md R93): its length, its symbols, and one pivot. -/

namespace Sys2Proof.Machine

@[simp] theorem length_xorFront (b p : SymSeq) : (xorFront b p).length = b.length := by
  induction b generalizing p with
  | nil => cases p <;> rfl
  | cons x b ih => cases p <;> simp [xorFront, ih]

theorem xorFront_getElem? (b p : SymSeq) (j : Nat) :
    (xorFront b p)[j]? = match b[j]?, p[j]? with
      | some x, some y => some (xorSym x y)
      | o, none => o
      | none, _ => none := by
  induction b generalizing p j with
  | nil =>
    cases p
    · rfl
    · simp only [xorFront, List.getElem?_nil]
      split <;> simp_all
  | cons x b ih =>
    cases p with
    | nil => simp [xorFront]
    | cons y p =>
      cases j with
      | zero => simp [xorFront]
      | succ j => simp [xorFront, ih]

theorem isBits_xorFront (b p : SymSeq) (h : isBits b = true) : isBits (xorFront b p) = true := by
  induction b generalizing p with
  | nil => cases p <;> rfl
  | cons x b ih =>
    rw [isBits_cons] at h
    cases p with
    | nil => simp [xorFront, h.1, h.2]
    | cons y p => simp [xorFront, isBit_xorSym, ih p h.2]

@[simp] theorem length_pivot (sp buf : SymSeq) (i : Nat) : (pivot sp buf i).length = buf.length := by
  unfold pivot xorAt
  split
  · simp only [List.length_append, List.length_take, length_xorFront, List.length_drop]
    omega
  · rfl

theorem isBits_pivot (sp buf : SymSeq) (i : Nat) (h : isBits buf = true) :
    isBits (pivot sp buf i) = true := by
  unfold pivot xorAt
  split
  · rw [isBits_append]
    exact ⟨isBits_take _ _ h, isBits_xorFront _ _ (isBits_drop _ _ h)⟩
  · exact h

@[simp] theorem divideTo_zero (w sp : SymSeq) : divideTo w sp 0 = w ++ rep sym0 (sp.length - 1) := rfl

theorem divideTo_succ (w sp : SymSeq) (m : Nat) :
    divideTo w sp (m + 1) = pivot sp (divideTo w sp m) m := by
  simp [divideTo, List.range_succ]

@[simp] theorem length_divideTo (w sp : SymSeq) (m : Nat) :
    (divideTo w sp m).length = w.length + (sp.length - 1) := by
  induction m with
  | zero => simp
  | succ m ih => rw [divideTo_succ, length_pivot, ih]

theorem isBits_divideTo (w sp : SymSeq) (m : Nat) (h : isBits w = true) :
    isBits (divideTo w sp m) = true := by
  induction m with
  | zero => rw [divideTo_zero, isBits_append]; exact ⟨h, isBits_rep0 _⟩
  | succ m ih => rw [divideTo_succ]; exact isBits_pivot _ _ _ ih

/-- One pivot leaves every bit outside its window, and every bit when its own is not `'1'`. -/
theorem pivot_getElem?_before (sp buf : SymSeq) (i j : Nat) (h : j < i) : (pivot sp buf i)[j]? = buf[j]? := by
  unfold pivot xorAt
  split
  · by_cases hj : j < buf.length
    · rw [List.getElem?_append_left (by simp only [List.length_take]; omega), List.getElem?_take, if_pos h]
    · have e : buf[j]? = none := List.getElem?_eq_none (by omega)
      rw [e]
      apply List.getElem?_eq_none
      simp only [List.length_append, List.length_take, length_xorFront, List.length_drop]
      omega
  · rfl

theorem length_work (f : SymSeq) (en : BitVec 1) :
    (work f en).length = if en = 1 ∧ 32 < f.length then f.length - 1 else f.length := by
  unfold work
  simp only [Config.sliceThreshold, Config.sliceField, Config.delimBits, gt_iff_lt]
  split
  · simp only [List.length_append, length_slice]
    omega
  · rfl

/-- The slicer keeps a bit sequence a bit sequence. -/
theorem isBits_work (f : SymSeq) (en : BitVec 1) (h : isBits f = true) : isBits (work f en) = true := by
  unfold work
  split
  · rw [isBits_append]
    exact ⟨isBits_slice _ _ _ h, isBits_slice _ _ _ h⟩
  · exact h

/-- A remainder has the degree as its length, for any input and any polynomial (R94). -/
@[simp] theorem length_remainder (w sp : SymSeq) : (remainder w sp).length = sp.length - 1 := by
  simp only [remainder, divide, length_slice, length_divideTo]
  omega

theorem isBits_remainder (w sp : SymSeq) (h : isBits w = true) : isBits (remainder w sp) = true :=
  isBits_slice _ _ _ (isBits_divideTo _ _ _ h)

/-- What the checks of CRC and ANALYZE say when they find nothing (R95, R120). -/
theorem crcOperandError_eq_none (frame poly : SymSeq) :
    crcOperandError frame poly = none ↔
      isBits poly = true ∧ isBits frame = true ∧ 2 ≤ (strip poly).length ∧ frame ≠ [] := by
  unfold crcOperandError Config.minPoly
  cases hp : isBits poly <;> cases hf : isBits frame <;> simp
  split
  · rename_i h
    refine iff_of_false (by simp) ?_
    rintro ⟨h', -⟩
    omega
  · split
    · simp_all
    · simp_all
      omega

end Sys2Proof.Machine
end

