-- ==== Sys2Proof/Laws/Analysis.lean ====
section
/-! SUPPORT. The comparator, the report rows and the hexadecimal digits, by cases. -/

namespace Sys2Proof.Machine

theorem hamming_cons (a b : Symbol) (x y : SymSeq) :
    hamming (a :: x) (b :: y) = (if a = b then 0 else 1) + hamming x y := by
  unfold hamming
  rw [List.zip_cons_cons, List.countP_cons]
  by_cases h : a = b <;> simp [h, Nat.add_comm]

/-- The rows are those of the in-range positions, in the order of the list (R117, R118). -/
theorem analysisRows_eq (en : BitVec 1) (w : Nat) (f p : SymSeq) (ps : List Position) :
    analysisRows en w f p ps =
      (ps.filter (fun q => decide (q.toNat < f.length))).map (analysisRow en w f p) := by
  induction ps with
  | nil => rfl
  | cons q ps ih =>
    unfold analysisRows
    by_cases h : q.toNat < f.length <;> simp [h, ih]

@[simp] theorem length_paddedCrc (en : BitVec 1) (w : Nat) (poly f : SymSeq) :
    (paddedCrc en w poly f).length = max ((strip poly).length - 1) w := by
  rw [paddedCrc, length_pad, crcOf, length_remainder]

theorem isBits_paddedCrc (en : BitVec 1) (w : Nat) (poly f : SymSeq) (h : isBits f = true) :
    isBits (paddedCrc en w poly f) = true :=
  isBits_pad _ _ (isBits_remainder _ _ (isBits_work _ _ h))

@[simp] theorem length_hexDigits (n v : Nat) : (hexDigits n v).length = n := by
  induction n with
  | zero => rfl
  | succ n ih => simp [hexDigits, ih]

/-- The digit at an index (R102). -/
theorem hexDigits_getElem? (n v i : Nat) (h : i < n) :
    (hexDigits n v)[i]? = some (hexDigit (v / 16 ^ (n - 1 - i) % 16)) := by
  induction n generalizing i with
  | zero => omega
  | succ n ih =>
    cases i with
    | zero => simp [hexDigits]
    | succ i =>
      rw [hexDigits, List.getElem?_cons_succ, ih i (by omega)]
      congr 5
      omega

end Sys2Proof.Machine
end

