-- ==== Sys2Proof/Laws/Decode.lean ====
section
/-! SUPPORT. The fields of a command word (spec/30_encoding.md R70): a word is its three fields, and the fields of a word
made from three fields are those. -/

namespace Sys2Proof

@[simp] theorem opField_mkWord (op sel : BitVec 4) (imm : BitVec 24) : opField (mkWord op sel imm) = op := by
  unfold opField mkWord
  ext i hi
  simp only [BitVec.getElem_extractLsb', BitVec.getLsbD_append]
  rw [if_neg (by omega), if_neg (by omega)]
  have e : 28 + i - 24 - 4 = i := by omega
  rw [e, BitVec.getLsbD_eq_getElem hi]

@[simp] theorem selField_mkWord (op sel : BitVec 4) (imm : BitVec 24) : selField (mkWord op sel imm) = sel := by
  unfold selField mkWord
  ext i hi
  simp only [BitVec.getElem_extractLsb', BitVec.getLsbD_append]
  rw [if_neg (by omega), if_pos (by omega)]
  have e : 24 + i - 24 = i := by omega
  rw [e, BitVec.getLsbD_eq_getElem hi]

@[simp] theorem immField_mkWord (op sel : BitVec 4) (imm : BitVec 24) : immField (mkWord op sel imm) = imm := by
  unfold immField mkWord
  ext i hi
  simp only [BitVec.getElem_extractLsb', BitVec.getLsbD_append]
  rw [if_pos (by omega)]
  have e : 0 + i = i := by omega
  rw [e, BitVec.getLsbD_eq_getElem hi]

/-- A word is made from its three fields (R70). -/
theorem mkWord_fields (w : Word) : mkWord (opField w) (selField w) (immField w) = w := by
  unfold mkWord opField selField immField
  rw [BitVec.extractLsb'_append_extractLsb'_eq_extractLsb' (by omega),
    BitVec.extractLsb'_append_extractLsb'_eq_extractLsb' (by omega)]
  exact BitVec.extractLsb'_eq_self

/-- Two words made from fields are equal exactly when the fields are. -/
theorem mkWord_inj (op op' sel sel' : BitVec 4) (imm imm' : BitVec 24) :
    mkWord op sel imm = mkWord op' sel' imm' ↔ op = op' ∧ sel = sel' ∧ imm = imm' := by
  constructor
  · intro h
    refine ⟨?_, ?_, ?_⟩
    · have := congrArg opField h
      simpa using this
    · have := congrArg selField h
      simpa using this
    · have := congrArg immField h
      simpa using this
  · rintro ⟨rfl, rfl, rfl⟩
    rfl

/-- Masking a word masks its fields. -/
theorem mkWord_and (op op' sel sel' : BitVec 4) (imm imm' : BitVec 24) :
    mkWord op sel imm &&& mkWord op' sel' imm' = mkWord (op &&& op') (sel &&& sel') (imm &&& imm') := by
  unfold mkWord
  rw [BitVec.and_append, BitVec.and_append]

/-- Joining two words joins their fields. -/
theorem mkWord_or (op op' sel sel' : BitVec 4) (imm imm' : BitVec 24) :
    mkWord op sel imm ||| mkWord op' sel' imm' = mkWord (op ||| op') (sel ||| sel') (imm ||| imm') := by
  unfold mkWord
  rw [BitVec.or_append, BitVec.or_append]

/-- The symbol of PUSH is kept by its 24-bit immediate (R75). -/
theorem symbol_of_imm (c : Symbol) :
    (c.setWidth 24).extractLsb' 0 8 = c ∧ (c.setWidth 24).extractLsb' 8 16 = 0 := by
  constructor
  · ext i hi
    simp only [BitVec.getElem_extractLsb', BitVec.getLsbD_setWidth]
    have e : 0 + i = i := by omega
    rw [e, BitVec.getLsbD_eq_getElem hi]
    simp only [Bool.and_eq_right_iff_imp, decide_eq_true_eq]
    intro _
    omega
  · ext i hi
    simp only [BitVec.getElem_extractLsb', BitVec.getLsbD_setWidth]
    simp

/-- An immediate whose high part is zero is its symbol (R71). -/
theorem imm_of_symbol (imm : BitVec 24) (h : imm.extractLsb' 8 16 = 0) :
    (imm.extractLsb' 0 8).setWidth 24 = imm := by
  ext i hi
  simp only [BitVec.getElem_setWidth, BitVec.getLsbD_extractLsb', Nat.zero_add]
  by_cases h8 : i < 8
  · rw [BitVec.getLsbD_eq_getElem hi]
    simp [h8]
  · have := congrArg (fun v => v.getLsbD (i - 8)) h
    simp only [BitVec.getLsbD_extractLsb'] at this
    have e : 8 + (i - 8) = i := by omega
    rw [e, BitVec.getLsbD_eq_getElem hi] at this
    simp [h8] at this ⊢
    exact (this (by omega)).symm ▸ rfl

/-- An immediate with no symbol bits above its low 8, said with a mask and with the field (R71). -/
theorem imm_mask_high (imm : BitVec 24) : imm &&& 0xFFFF00 = 0 ↔ imm.extractLsb' 8 16 = 0 := by
  have e : (0xFFFF00 : BitVec 24) = (0xFFFF : BitVec 16) ++ (0 : BitVec 8) := by decide
  have e' : imm = imm.extractLsb' 8 16 ++ imm.extractLsb' 0 8 := by
    rw [BitVec.extractLsb'_append_extractLsb'_eq_extractLsb' (by omega)]
    exact BitVec.extractLsb'_eq_self.symm
  have h : imm &&& 0xFFFF00 = imm.extractLsb' 8 16 ++ (0 : BitVec 8) := by
    conv_lhs => rw [e, e', BitVec.and_append]
    have a : (0xFFFF : BitVec 16) = BitVec.allOnes 16 := rfl
    rw [a, BitVec.and_allOnes, show imm.extractLsb' 0 8 &&& (0 : BitVec 8) = 0 by simp]
  rw [h]
  constructor
  · intro h
    have h' : imm.extractLsb' 8 16 ++ (0 : BitVec 8) = (0 : BitVec 16) ++ (0 : BitVec 8) := h
    rwa [BitVec.append_left_inj] at h'
  · intro h
    rw [h]
    rfl

/-- A 24-bit immediate at the bottom of a word (R70). -/
theorem setWidth_eq_mkWord (imm : BitVec 24) : imm.setWidth 32 = mkWord 0 0 imm := by
  unfold mkWord
  rw [BitVec.setWidth_eq_append (by omega)]
  rfl

theorem mkWord_split (op sel : BitVec 4) (imm : BitVec 24) :
    mkWord op sel imm = mkWord op sel 0 ||| imm.setWidth 32 := by
  rw [setWidth_eq_mkWord, mkWord_or]
  simp

theorem seqReg?_eq_some (sel : BitVec 4) (x : SeqReg) : seqReg? sel = some x ↔ sel = x.sel := by
  cases x <;> (revert sel; decide)

theorem clrReg?_eq_some (sel : BitVec 4) (x : ClrReg) : clrReg? sel = some x ↔ sel = x.sel := by
  rcases x with x | _
  · cases x <;> (revert sel; decide)
  · revert sel; decide

theorem hexReg?_eq_some (sel : BitVec 4) (x : HexReg) : hexReg? sel = some x ↔ sel = x.sel := by
  rcases x with x | _ | _
  · cases x <;> (revert sel; decide)
  · revert sel; decide
  · revert sel; decide

theorem cfgField?_eq_some (sel : BitVec 4) (f : CfgField) : cfgField? sel = some f ↔ sel = f.index := by
  cases f <;> (revert sel; decide)

/-- Decoding a word made from its fields: the row is chosen by the opcode alone (R78). -/
theorem decode_mkWord (op sel : BitVec 4) (imm : BitVec 24) :
    decode (mkWord op sel imm) = match op.toNat with
      | 0x1 => decodeClr sel imm
      | 0x2 => decodePush sel imm
      | 0x3 => decodePushp sel imm
      | 0x4 => decodeCfgw sel imm
      | 0x5 => decodeZ .crc sel imm
      | 0x6 => decodeHex sel imm
      | 0x7 => decodeZ .ham sel imm
      | 0x8 => decodeZ .analyze sel imm
      | 0x9 => decodeZ .reset sel imm
      | _ => .error .unknownOpcode := by
  unfold decode
  simp only [opField_mkWord, selField_mkWord, immField_mkWord]
  all_goals rfl

/-- What format Z accepts (R71). -/
theorem decodeZ_eq_ok (i j : Instr) (sel : BitVec 4) (imm : BitVec 24) :
    decodeZ i sel imm = .ok j ↔ sel = 0 ∧ imm = 0 ∧ i = j := by
  unfold decodeZ
  split
  · simp_all
  · split <;> simp_all

/-- What CLR accepts (R72). -/
theorem decodeClr_eq_ok (j : Instr) (sel : BitVec 4) (imm : BitVec 24) :
    decodeClr sel imm = .ok j ↔ imm = 0 ∧ ∃ x : ClrReg, sel = x.sel ∧ j = .clr x := by
  simp only [← clrReg?_eq_some]
  unfold decodeClr
  split
  · simp_all
  · rename_i h
    have h0 : imm = 0 := by simpa using h
    cases clrReg? sel with
    | none => simp
    | some x =>
      constructor
      · intro h'
        exact ⟨h0, x, rfl, (Except.ok.inj h').symm⟩
      · rintro ⟨-, y, hy, rfl⟩
        obtain rfl := Option.some.inj hy
        rfl

/-- What HEX accepts (R72). -/
theorem decodeHex_eq_ok (j : Instr) (sel : BitVec 4) (imm : BitVec 24) :
    decodeHex sel imm = .ok j ↔ imm = 0 ∧ ∃ x : HexReg, sel = x.sel ∧ j = .hex x := by
  simp only [← hexReg?_eq_some]
  unfold decodeHex
  split
  · simp_all
  · rename_i h
    have h0 : imm = 0 := by simpa using h
    cases hexReg? sel with
    | none => simp
    | some x =>
      constructor
      · intro h'
        exact ⟨h0, x, rfl, (Except.ok.inj h').symm⟩
      · rintro ⟨-, y, hy, rfl⟩
        obtain rfl := Option.some.inj hy
        rfl

/-- What PUSH accepts (R72). -/
theorem decodePush_eq_ok (j : Instr) (sel : BitVec 4) (imm : BitVec 24) :
    decodePush sel imm = .ok j ↔
      ∃ (x : SeqReg) (c : Symbol), sel = x.sel ∧ imm = c.setWidth 24 ∧ j = .push x c := by
  simp only [← seqReg?_eq_some]
  unfold decodePush
  split
  · rename_i h
    refine iff_of_false (by simp) ?_
    rintro ⟨x, c, -, rfl, -⟩
    exact h (symbol_of_imm c).2
  · rename_i h
    have hi := imm_of_symbol imm (by simpa using h)
    cases hs : seqReg? sel with
    | none => simp
    | some x =>
      constructor
      · intro h'
        exact ⟨x, _, rfl, hi.symm, (Except.ok.inj h').symm⟩
      · rintro ⟨y, c, hy, rfl, rfl⟩
        obtain rfl := Option.some.inj hy
        rw [(symbol_of_imm c).1]

/-- What PUSHP accepts (R72). -/
theorem decodePushp_eq_ok (j : Instr) (sel : BitVec 4) (imm : BitVec 24) :
    decodePushp sel imm = .ok j ↔ sel = 0 ∧ j = .pushp imm := by
  unfold decodePushp
  split
  · simp_all
  · rename_i h
    have h0 : sel = 0 := by simpa using h
    constructor
    · intro h'
      exact ⟨h0, (Except.ok.inj h').symm⟩
    · rintro ⟨-, rfl⟩
      rfl

/-- What CFGW accepts (R72). -/
theorem decodeCfgw_eq_ok (j : Instr) (sel : BitVec 4) (imm : BitVec 24) :
    decodeCfgw sel imm = .ok j ↔
      ∃ f : CfgField, sel = f.index ∧ f.legalValue imm = true ∧ j = .cfgw f imm := by
  simp only [← cfgField?_eq_some]
  unfold decodeCfgw
  cases cfgField? sel with
  | none => simp
  | some f =>
    cases hl : f.legalValue imm with
    | false =>
      refine iff_of_false (by simp [hl]) ?_
      rintro ⟨y, hy, hl', -⟩
      obtain rfl := Option.some.inj hy
      simp [hl] at hl'
    | true =>
      constructor
      · intro h'
        simp only [hl, if_true] at h'
        exact ⟨f, rfl, hl, (Except.ok.inj h').symm⟩
      · rintro ⟨y, hy, -, rfl⟩
        obtain rfl := Option.some.inj hy
        simp [hl]

end Sys2Proof
end

