-- ==== Sys2Proof/Laws/State.lean ====
section
/-! SUPPORT. One lemma per field per update of State, each true by rfl (for `setSeq` and `invalidate`, after a case split on
what they name). -/

namespace Sys2Proof.Machine

section setEpos
variable (v : List Position) (s : State)
@[simp] theorem setEpos_frame : (setEpos v s).frame = s.frame := rfl
@[simp] theorem setEpos_poly : (setEpos v s).poly = s.poly := rfl
@[simp] theorem setEpos_opa : (setEpos v s).opa = s.opa := rfl
@[simp] theorem setEpos_opb : (setEpos v s).opb = s.opb := rfl
@[simp] theorem setEpos_epos : (setEpos v s).epos = v := rfl
@[simp] theorem setEpos_sliceEn : (setEpos v s).sliceEn = s.sliceEn := rfl
@[simp] theorem setEpos_dispW : (setEpos v s).dispW = s.dispW := rfl
@[simp] theorem setEpos_crc : (setEpos v s).crc = s.crc := rfl
@[simp] theorem setEpos_crck : (setEpos v s).crck = s.crck := rfl
@[simp] theorem setEpos_hexr : (setEpos v s).hexr = s.hexr := rfl
@[simp] theorem setEpos_dist : (setEpos v s).dist = s.dist := rfl
@[simp] theorem setEpos_base : (setEpos v s).base = s.base := rfl
@[simp] theorem setEpos_report : (setEpos v s).report = s.report := rfl
@[simp] theorem setEpos_err : (setEpos v s).err = s.err := rfl
@[simp] theorem setEpos_pending : (setEpos v s).pending = s.pending := rfl
end setEpos

section setSliceEn
variable (v : BitVec 1) (s : State)
@[simp] theorem setSliceEn_frame : (setSliceEn v s).frame = s.frame := rfl
@[simp] theorem setSliceEn_poly : (setSliceEn v s).poly = s.poly := rfl
@[simp] theorem setSliceEn_opa : (setSliceEn v s).opa = s.opa := rfl
@[simp] theorem setSliceEn_opb : (setSliceEn v s).opb = s.opb := rfl
@[simp] theorem setSliceEn_epos : (setSliceEn v s).epos = s.epos := rfl
@[simp] theorem setSliceEn_sliceEn : (setSliceEn v s).sliceEn = v := rfl
@[simp] theorem setSliceEn_dispW : (setSliceEn v s).dispW = s.dispW := rfl
@[simp] theorem setSliceEn_crc : (setSliceEn v s).crc = s.crc := rfl
@[simp] theorem setSliceEn_crck : (setSliceEn v s).crck = s.crck := rfl
@[simp] theorem setSliceEn_hexr : (setSliceEn v s).hexr = s.hexr := rfl
@[simp] theorem setSliceEn_dist : (setSliceEn v s).dist = s.dist := rfl
@[simp] theorem setSliceEn_base : (setSliceEn v s).base = s.base := rfl
@[simp] theorem setSliceEn_report : (setSliceEn v s).report = s.report := rfl
@[simp] theorem setSliceEn_err : (setSliceEn v s).err = s.err := rfl
@[simp] theorem setSliceEn_pending : (setSliceEn v s).pending = s.pending := rfl
end setSliceEn

section setDispW
variable (v : BitVec 24) (s : State)
@[simp] theorem setDispW_frame : (setDispW v s).frame = s.frame := rfl
@[simp] theorem setDispW_poly : (setDispW v s).poly = s.poly := rfl
@[simp] theorem setDispW_opa : (setDispW v s).opa = s.opa := rfl
@[simp] theorem setDispW_opb : (setDispW v s).opb = s.opb := rfl
@[simp] theorem setDispW_epos : (setDispW v s).epos = s.epos := rfl
@[simp] theorem setDispW_sliceEn : (setDispW v s).sliceEn = s.sliceEn := rfl
@[simp] theorem setDispW_dispW : (setDispW v s).dispW = v := rfl
@[simp] theorem setDispW_crc : (setDispW v s).crc = s.crc := rfl
@[simp] theorem setDispW_crck : (setDispW v s).crck = s.crck := rfl
@[simp] theorem setDispW_hexr : (setDispW v s).hexr = s.hexr := rfl
@[simp] theorem setDispW_dist : (setDispW v s).dist = s.dist := rfl
@[simp] theorem setDispW_base : (setDispW v s).base = s.base := rfl
@[simp] theorem setDispW_report : (setDispW v s).report = s.report := rfl
@[simp] theorem setDispW_err : (setDispW v s).err = s.err := rfl
@[simp] theorem setDispW_pending : (setDispW v s).pending = s.pending := rfl
end setDispW

section setCrc
variable (c ck : SymSeq) (s : State)
@[simp] theorem setCrc_frame : (setCrc c ck s).frame = s.frame := rfl
@[simp] theorem setCrc_poly : (setCrc c ck s).poly = s.poly := rfl
@[simp] theorem setCrc_opa : (setCrc c ck s).opa = s.opa := rfl
@[simp] theorem setCrc_opb : (setCrc c ck s).opb = s.opb := rfl
@[simp] theorem setCrc_epos : (setCrc c ck s).epos = s.epos := rfl
@[simp] theorem setCrc_sliceEn : (setCrc c ck s).sliceEn = s.sliceEn := rfl
@[simp] theorem setCrc_dispW : (setCrc c ck s).dispW = s.dispW := rfl
@[simp] theorem setCrc_crc : (setCrc c ck s).crc = some c := rfl
@[simp] theorem setCrc_crck : (setCrc c ck s).crck = some ck := rfl
@[simp] theorem setCrc_hexr : (setCrc c ck s).hexr = s.hexr := rfl
@[simp] theorem setCrc_dist : (setCrc c ck s).dist = s.dist := rfl
@[simp] theorem setCrc_base : (setCrc c ck s).base = s.base := rfl
@[simp] theorem setCrc_report : (setCrc c ck s).report = s.report := rfl
@[simp] theorem setCrc_err : (setCrc c ck s).err = s.err := rfl
@[simp] theorem setCrc_pending : (setCrc c ck s).pending = s.pending := rfl
end setCrc

section setHexr
variable (h : SymSeq) (s : State)
@[simp] theorem setHexr_frame : (setHexr h s).frame = s.frame := rfl
@[simp] theorem setHexr_poly : (setHexr h s).poly = s.poly := rfl
@[simp] theorem setHexr_opa : (setHexr h s).opa = s.opa := rfl
@[simp] theorem setHexr_opb : (setHexr h s).opb = s.opb := rfl
@[simp] theorem setHexr_epos : (setHexr h s).epos = s.epos := rfl
@[simp] theorem setHexr_sliceEn : (setHexr h s).sliceEn = s.sliceEn := rfl
@[simp] theorem setHexr_dispW : (setHexr h s).dispW = s.dispW := rfl
@[simp] theorem setHexr_crc : (setHexr h s).crc = s.crc := rfl
@[simp] theorem setHexr_crck : (setHexr h s).crck = s.crck := rfl
@[simp] theorem setHexr_hexr : (setHexr h s).hexr = some h := rfl
@[simp] theorem setHexr_dist : (setHexr h s).dist = s.dist := rfl
@[simp] theorem setHexr_base : (setHexr h s).base = s.base := rfl
@[simp] theorem setHexr_report : (setHexr h s).report = s.report := rfl
@[simp] theorem setHexr_err : (setHexr h s).err = s.err := rfl
@[simp] theorem setHexr_pending : (setHexr h s).pending = s.pending := rfl
end setHexr

section setDist
variable (d : Nat) (s : State)
@[simp] theorem setDist_frame : (setDist d s).frame = s.frame := rfl
@[simp] theorem setDist_poly : (setDist d s).poly = s.poly := rfl
@[simp] theorem setDist_opa : (setDist d s).opa = s.opa := rfl
@[simp] theorem setDist_opb : (setDist d s).opb = s.opb := rfl
@[simp] theorem setDist_epos : (setDist d s).epos = s.epos := rfl
@[simp] theorem setDist_sliceEn : (setDist d s).sliceEn = s.sliceEn := rfl
@[simp] theorem setDist_dispW : (setDist d s).dispW = s.dispW := rfl
@[simp] theorem setDist_crc : (setDist d s).crc = s.crc := rfl
@[simp] theorem setDist_crck : (setDist d s).crck = s.crck := rfl
@[simp] theorem setDist_hexr : (setDist d s).hexr = s.hexr := rfl
@[simp] theorem setDist_dist : (setDist d s).dist = some d := rfl
@[simp] theorem setDist_base : (setDist d s).base = s.base := rfl
@[simp] theorem setDist_report : (setDist d s).report = s.report := rfl
@[simp] theorem setDist_err : (setDist d s).err = s.err := rfl
@[simp] theorem setDist_pending : (setDist d s).pending = s.pending := rfl
end setDist

section setReport
variable (b : Baseline) (rows : List ReportRow) (s : State)
@[simp] theorem setReport_frame : (setReport b rows s).frame = s.frame := rfl
@[simp] theorem setReport_poly : (setReport b rows s).poly = s.poly := rfl
@[simp] theorem setReport_opa : (setReport b rows s).opa = s.opa := rfl
@[simp] theorem setReport_opb : (setReport b rows s).opb = s.opb := rfl
@[simp] theorem setReport_epos : (setReport b rows s).epos = s.epos := rfl
@[simp] theorem setReport_sliceEn : (setReport b rows s).sliceEn = s.sliceEn := rfl
@[simp] theorem setReport_dispW : (setReport b rows s).dispW = s.dispW := rfl
@[simp] theorem setReport_crc : (setReport b rows s).crc = s.crc := rfl
@[simp] theorem setReport_crck : (setReport b rows s).crck = s.crck := rfl
@[simp] theorem setReport_hexr : (setReport b rows s).hexr = s.hexr := rfl
@[simp] theorem setReport_dist : (setReport b rows s).dist = s.dist := rfl
@[simp] theorem setReport_base : (setReport b rows s).base = some b := rfl
@[simp] theorem setReport_report : (setReport b rows s).report = some rows := rfl
@[simp] theorem setReport_err : (setReport b rows s).err = s.err := rfl
@[simp] theorem setReport_pending : (setReport b rows s).pending = s.pending := rfl
end setReport

section setErr
variable (c : BitVec 4) (s : State)
@[simp] theorem setErr_frame : (setErr c s).frame = s.frame := rfl
@[simp] theorem setErr_poly : (setErr c s).poly = s.poly := rfl
@[simp] theorem setErr_opa : (setErr c s).opa = s.opa := rfl
@[simp] theorem setErr_opb : (setErr c s).opb = s.opb := rfl
@[simp] theorem setErr_epos : (setErr c s).epos = s.epos := rfl
@[simp] theorem setErr_sliceEn : (setErr c s).sliceEn = s.sliceEn := rfl
@[simp] theorem setErr_dispW : (setErr c s).dispW = s.dispW := rfl
@[simp] theorem setErr_crc : (setErr c s).crc = s.crc := rfl
@[simp] theorem setErr_crck : (setErr c s).crck = s.crck := rfl
@[simp] theorem setErr_hexr : (setErr c s).hexr = s.hexr := rfl
@[simp] theorem setErr_dist : (setErr c s).dist = s.dist := rfl
@[simp] theorem setErr_base : (setErr c s).base = s.base := rfl
@[simp] theorem setErr_report : (setErr c s).report = s.report := rfl
@[simp] theorem setErr_err : (setErr c s).err = c := rfl
@[simp] theorem setErr_pending : (setErr c s).pending = s.pending := rfl
end setErr

section succeed
variable (s : State)
@[simp] theorem succeed_frame : (succeed s).frame = s.frame := rfl
@[simp] theorem succeed_poly : (succeed s).poly = s.poly := rfl
@[simp] theorem succeed_opa : (succeed s).opa = s.opa := rfl
@[simp] theorem succeed_opb : (succeed s).opb = s.opb := rfl
@[simp] theorem succeed_epos : (succeed s).epos = s.epos := rfl
@[simp] theorem succeed_sliceEn : (succeed s).sliceEn = s.sliceEn := rfl
@[simp] theorem succeed_dispW : (succeed s).dispW = s.dispW := rfl
@[simp] theorem succeed_crc : (succeed s).crc = s.crc := rfl
@[simp] theorem succeed_crck : (succeed s).crck = s.crck := rfl
@[simp] theorem succeed_hexr : (succeed s).hexr = s.hexr := rfl
@[simp] theorem succeed_dist : (succeed s).dist = s.dist := rfl
@[simp] theorem succeed_base : (succeed s).base = s.base := rfl
@[simp] theorem succeed_report : (succeed s).report = s.report := rfl
@[simp] theorem succeed_err : (succeed s).err = okCode := rfl
@[simp] theorem succeed_pending : (succeed s).pending = s.pending := rfl
end succeed

section resetRegs
variable (s : State)
@[simp] theorem resetRegs_frame : (resetRegs s).frame = State.reset.frame := rfl
@[simp] theorem resetRegs_poly : (resetRegs s).poly = State.reset.poly := rfl
@[simp] theorem resetRegs_opa : (resetRegs s).opa = State.reset.opa := rfl
@[simp] theorem resetRegs_opb : (resetRegs s).opb = State.reset.opb := rfl
@[simp] theorem resetRegs_epos : (resetRegs s).epos = State.reset.epos := rfl
@[simp] theorem resetRegs_sliceEn : (resetRegs s).sliceEn = State.reset.sliceEn := rfl
@[simp] theorem resetRegs_dispW : (resetRegs s).dispW = State.reset.dispW := rfl
@[simp] theorem resetRegs_crc : (resetRegs s).crc = State.reset.crc := rfl
@[simp] theorem resetRegs_crck : (resetRegs s).crck = State.reset.crck := rfl
@[simp] theorem resetRegs_hexr : (resetRegs s).hexr = State.reset.hexr := rfl
@[simp] theorem resetRegs_dist : (resetRegs s).dist = State.reset.dist := rfl
@[simp] theorem resetRegs_base : (resetRegs s).base = State.reset.base := rfl
@[simp] theorem resetRegs_report : (resetRegs s).report = State.reset.report := rfl
@[simp] theorem resetRegs_err : (resetRegs s).err = State.reset.err := rfl
@[simp] theorem resetRegs_pending : (resetRegs s).pending = s.pending := rfl
end resetRegs

section setSeq
variable (x : SeqReg) (v : SymSeq) (s : State)
@[simp] theorem setSeq_epos : (setSeq x v s).epos = s.epos := by cases x <;> rfl
@[simp] theorem setSeq_sliceEn : (setSeq x v s).sliceEn = s.sliceEn := by cases x <;> rfl
@[simp] theorem setSeq_dispW : (setSeq x v s).dispW = s.dispW := by cases x <;> rfl
@[simp] theorem setSeq_crc : (setSeq x v s).crc = s.crc := by cases x <;> rfl
@[simp] theorem setSeq_crck : (setSeq x v s).crck = s.crck := by cases x <;> rfl
@[simp] theorem setSeq_hexr : (setSeq x v s).hexr = s.hexr := by cases x <;> rfl
@[simp] theorem setSeq_dist : (setSeq x v s).dist = s.dist := by cases x <;> rfl
@[simp] theorem setSeq_base : (setSeq x v s).base = s.base := by cases x <;> rfl
@[simp] theorem setSeq_report : (setSeq x v s).report = s.report := by cases x <;> rfl
@[simp] theorem setSeq_err : (setSeq x v s).err = s.err := by cases x <;> rfl
@[simp] theorem setSeq_pending : (setSeq x v s).pending = s.pending := by cases x <;> rfl
@[simp] theorem getSeq_setSeq_self : getSeq x (setSeq x v s) = v := by cases x <;> rfl
theorem getSeq_setSeq_ne (y : SeqReg) (h : y ≠ x) : getSeq y (setSeq x v s) = getSeq y s := by
  cases x <;> cases y <;> first | rfl | exact absurd rfl h
theorem getSeq_setSeq (y : SeqReg) : getSeq y (setSeq x v s) = if y = x then v else getSeq y s := by
  cases x <;> cases y <;> rfl
end setSeq

section getSeq
variable (x : SeqReg) (s : State)
@[simp] theorem getSeq_setEpos (v : List Position) : getSeq x (setEpos v s) = getSeq x s := by cases x <;> rfl
@[simp] theorem getSeq_setSliceEn (v : BitVec 1) : getSeq x (setSliceEn v s) = getSeq x s := by cases x <;> rfl
@[simp] theorem getSeq_setDispW (v : BitVec 24) : getSeq x (setDispW v s) = getSeq x s := by cases x <;> rfl
@[simp] theorem getSeq_setCrc (c ck : SymSeq) : getSeq x (setCrc c ck s) = getSeq x s := by cases x <;> rfl
@[simp] theorem getSeq_setHexr (h : SymSeq) : getSeq x (setHexr h s) = getSeq x s := by cases x <;> rfl
@[simp] theorem getSeq_setDist (d : Nat) : getSeq x (setDist d s) = getSeq x s := by cases x <;> rfl
@[simp] theorem getSeq_setReport (b : Baseline) (rows : List ReportRow) : getSeq x (setReport b rows s) = getSeq x s := by cases x <;> rfl
@[simp] theorem getSeq_setErr (c : BitVec 4) : getSeq x (setErr c s) = getSeq x s := by cases x <;> rfl
@[simp] theorem getSeq_succeed : getSeq x (succeed s) = getSeq x s := by cases x <;> rfl
@[simp] theorem getSeq_invalidate (g : ResultGroup) : getSeq x (invalidate g s) = getSeq x s := by
  cases x <;> cases g <;> rfl
@[simp] theorem getSeq_resetRegs : getSeq x (resetRegs s) = [] := by cases x <;> rfl
@[simp] theorem getSeq_reset : getSeq x State.reset = [] := by cases x <;> rfl
end getSeq

section invalidate
variable (g : ResultGroup) (s : State)
@[simp] theorem invalidate_frame : (invalidate g s).frame = s.frame := by cases g <;> rfl
@[simp] theorem invalidate_poly : (invalidate g s).poly = s.poly := by cases g <;> rfl
@[simp] theorem invalidate_opa : (invalidate g s).opa = s.opa := by cases g <;> rfl
@[simp] theorem invalidate_opb : (invalidate g s).opb = s.opb := by cases g <;> rfl
@[simp] theorem invalidate_epos : (invalidate g s).epos = s.epos := by cases g <;> rfl
@[simp] theorem invalidate_sliceEn : (invalidate g s).sliceEn = s.sliceEn := by cases g <;> rfl
@[simp] theorem invalidate_dispW : (invalidate g s).dispW = s.dispW := by cases g <;> rfl
@[simp] theorem invalidate_err : (invalidate g s).err = s.err := by cases g <;> rfl
@[simp] theorem invalidate_pending : (invalidate g s).pending = s.pending := by cases g <;> rfl
@[simp] theorem invalidate_crc : (invalidate g s).crc = if g = .crc then none else s.crc := by
  cases g <;> rfl
@[simp] theorem invalidate_crck : (invalidate g s).crck = if g = .crc then none else s.crck := by
  cases g <;> rfl
@[simp] theorem invalidate_hexr : (invalidate g s).hexr = if g = .hex then none else s.hexr := by
  cases g <;> rfl
@[simp] theorem invalidate_dist : (invalidate g s).dist = if g = .ham then none else s.dist := by
  cases g <;> rfl
@[simp] theorem invalidate_base : (invalidate g s).base = if g = .analyze then none else s.base := by
  cases g <;> rfl
@[simp] theorem invalidate_report : (invalidate g s).report = if g = .analyze then none else s.report := by
  cases g <;> rfl
end invalidate

end Sys2Proof.Machine
end

