-- ==== Sys2Proof/Laws/Ops.lean ====
section
/-! SUPPORT. What each shared operation of Machine/Ops.lean can do, said once. -/

namespace Sys2Proof.Machine

/-- Taking an error writes the code, makes the owned group invalid, and changes nothing else (R160). -/
theorem raise_effect (o : Option ResultGroup) (e : ErrorKind) (s : State) :
    raise o e s =
      match o with
      | none => { s with err := errCode e }
      | some .crc => { s with crc := none, crck := none, err := errCode e }
      | some .hex => { s with hexr := none, err := errCode e }
      | some .ham => { s with dist := none, err := errCode e }
      | some .analyze => { s with base := none, report := none, err := errCode e } := by
  rcases o with _ | g
  · rfl
  · cases g <;> rfl

@[simp] theorem raise_err (o : Option ResultGroup) (e : ErrorKind) (s : State) :
    (raise o e s).err = errCode e := by cases o <;> rfl

@[simp] theorem raise_pending (o : Option ResultGroup) (e : ErrorKind) (s : State) :
    (raise o e s).pending = s.pending := by
  rcases o with _ | g
  · rfl
  · cases g <;> rfl

@[simp] theorem getSeq_raise (x : SeqReg) (o : Option ResultGroup) (e : ErrorKind) (s : State) :
    getSeq x (raise o e s) = getSeq x s := by
  rcases o with _ | g <;> cases x
  all_goals first | rfl | (cases g <;> rfl)

/-- No error has the code of OK. -/
theorem errCode_ne_ok (e : ErrorKind) : errCode e ≠ okCode := by cases e <;> decide

/-- Two errors with one code are one error. -/
theorem errCode_injective (e e' : ErrorKind) (h : errCode e = errCode e') : e = e' := by
  cases e <;> cases e' <;> first | rfl | (exact absurd h (by decide))

/-- Every code is one of 0 to 7 (R159). -/
theorem errCode_le (e : ErrorKind) : (errCode e).toNat ≤ 7 := by cases e <;> decide

/-- A store is full exactly when it is bounded and holds its bound (R131, R132). -/
theorem isFull_iff (cap : Capacity) (n : Nat) : isFull cap n = true ↔ cap = .bounded n := by
  cases cap with
  | bounded m =>
    rw [isFull, beq_iff_eq, Capacity.bounded.injEq]
    exact eq_comm
  | unbounded => simp [isFull]

/-- A bounded MAXLEN is at least 33 (R10). -/
theorem maxLen_bounded_ge (m : Nat) (h : Config.maxLen = .bounded m) : 33 ≤ m := by
  unfold Config.maxLen at h
  cases hc : Config.chosenMaxLen with
  | bounded n =>
    simp only [hc, Config.legalMaxLen, Config.leastMaxLen, Capacity.bounded.injEq] at h
    omega
  | unbounded => simp [hc, Config.legalMaxLen] at h

/-- A bounded MAXPOS is at least 1 (R10). -/
theorem maxPos_bounded_ge (m : Nat) (h : Config.maxPos = .bounded m) : 1 ≤ m := by
  unfold Config.maxPos at h
  cases hc : Config.chosenMaxPos with
  | bounded n =>
    simp only [hc, Config.legalMaxPos, Config.leastMaxPos, Capacity.bounded.injEq] at h
    omega
  | unbounded => simp [hc, Config.legalMaxPos] at h

/-- Every legal choice of MAXLEN is kept (R10). -/
theorem legalMaxLen_of_legal (n : Nat) (h : 33 ≤ n) (h' : n ≤ 16777215) :
    Config.legalMaxLen (.bounded n) = .bounded n := by
  simp only [Config.legalMaxLen, Config.leastMaxLen, Config.greatestMaxLen, Capacity.bounded.injEq]
  omega

/-- Every legal choice of MAXPOS is kept (R10). -/
theorem legalMaxPos_of_legal (n : Nat) (h : 1 ≤ n) : Config.legalMaxPos (.bounded n) = .bounded n := by
  simp only [Config.legalMaxPos, Config.leastMaxPos, Capacity.bounded.injEq]
  omega

end Sys2Proof.Machine
end

