-- ==== Sys2Proof/Laws/Exec.lean ====
section
/-! SUPPORT. What a command can do, said once: it raises an error on its own result registers, or it ends with success and
has written what its rule names. -/

namespace Sys2Proof.Machine

/-- `t` is a successful end of the command in `s`: what the command wrote, and STATUS.ERR 0. -/
def Succeeded (i : Instr) (s t : State) : Prop :=
  match i with
  | .clr x => t = succeed (seqClear x s)
  | .push x c => t = succeed (seqAppend x c s)
  | .pushp p => t = succeed (setEpos (s.epos ++ [p]) s)
  | .cfgw f v => t = succeed (writeCfg f v s)
  | .crc => ∃ c ck, t = succeed (setCrc c ck s)
  | .hex _ => ∃ h, t = succeed (setHexr h s)
  | .ham => ∃ d, t = succeed (setDist d s)
  | .analyze => ∃ b rows, t = succeed (setReport b rows s)
  | .reset => t = succeed (resetRegs s)

theorem Succeeded.err_ok {i : Instr} {s t : State} (h : Succeeded i s t) : t.err = okCode := by
  cases i with
  | clr x => exact h ▸ rfl
  | push x c => exact h ▸ rfl
  | pushp p => exact h ▸ rfl
  | cfgw f v => exact h ▸ rfl
  | crc => obtain ⟨c, ck, rfl⟩ := h; rfl
  | hex x => obtain ⟨x, rfl⟩ := h; rfl
  | ham => obtain ⟨d, rfl⟩ := h; rfl
  | analyze => obtain ⟨b, rows, rfl⟩ := h; rfl
  | reset => exact h ▸ rfl

/-- The two ways a command can end (R160, R170). -/
theorem exec_cases {i : Instr} {s t : State} (h : exec i s = .next t) :
    (∃ e, t = raise (owns i) e s) ∨ Succeeded i s t := by
  have h := h.symm
  cases i with
  | clr x => exact .inr (Host.Outcome.next.inj h)
  | push x c =>
    have h := Host.Outcome.next.inj h
    unfold pushSymbol at h
    split at h
    · exact .inl ⟨_, h⟩
    · exact .inr h
  | pushp p =>
    have h := Host.Outcome.next.inj h
    unfold pushPosition at h
    split at h
    · exact .inl ⟨_, h⟩
    · exact .inr h
  | cfgw f v => exact .inr (Host.Outcome.next.inj h)
  | crc =>
    have h := Host.Outcome.next.inj h
    split at h
    · exact .inl ⟨_, h⟩
    · exact .inr ⟨_, _, h⟩
  | hex x =>
    have h := Host.Outcome.next.inj h
    split at h
    · exact .inl ⟨_, h⟩
    · split at h
      · exact .inl ⟨_, h⟩
      · exact .inr ⟨_, h⟩
  | ham =>
    have h := Host.Outcome.next.inj h
    split at h
    · exact .inl ⟨_, h⟩
    · exact .inr ⟨_, h⟩
  | analyze =>
    have h := Host.Outcome.next.inj h
    split at h
    · exact .inl ⟨_, h⟩
    · exact .inr ⟨_, _, h⟩
  | reset => exact .inr (Host.Outcome.next.inj h)

/-- An error leaves the operands, the configuration and the inputs (R160). -/
theorem raise_same (o : Option ResultGroup) (e : ErrorKind) (s : State) :
    SameOperands s (raise o e s) ∧ SameConfig s (raise o e s) ∧ (raise o e s).pending = s.pending := by
  rcases o with _ | g
  · exact ⟨⟨rfl, rfl, rfl, rfl, rfl⟩, ⟨rfl, rfl⟩, rfl⟩
  · cases g <;> exact ⟨⟨rfl, rfl, rfl, rfl, rfl⟩, ⟨rfl, rfl⟩, rfl⟩

end Sys2Proof.Machine
end

