-- ==== Sys2Proof/Laws/PerInstr.lean ====
section
/-! SUPPORT. Laws stated per constructor of Instr. `EncodingRow`: the word of a command agrees with the match and the mask of
its row of spec/opcode_table.json. -/

namespace Sys2Proof.Laws.EncodingRow

/-- The mask of the command's row (R72). -/
def mask : Instr → Word
  | .clr _ => 0xF0FFFFFF
  | .push _ _ => 0xF0FFFF00
  | .pushp _ => 0xFF000000
  | .cfgw _ _ => 0xF0000000
  | .crc => 0xFFFFFFFF
  | .hex _ => 0xF0FFFFFF
  | .ham => 0xFFFFFFFF
  | .analyze => 0xFFFFFFFF
  | .reset => 0xFFFFFFFF

/-- The match of the command's row (R72). -/
def rowMatch : Instr → Word
  | .clr _ => 0x10000000
  | .push _ _ => 0x20000000
  | .pushp _ => 0x30000000
  | .cfgw _ _ => 0x40000000
  | .crc => 0x50000000
  | .hex _ => 0x60000000
  | .ham => 0x70000000
  | .analyze => 0x80000000
  | .reset => 0x90000000

/-- The word of the command is a word of its row. -/
def Statement (i : Instr) : Prop := encode i &&& mask i = rowMatch i

theorem clr (x : ClrReg) : Statement (.clr x) := by
  rcases x with x | _
  · cases x <;> (unfold Statement; decide)
  · unfold Statement; decide

theorem hex (x : HexReg) : Statement (.hex x) := by
  rcases x with x | _ | _
  · cases x <;> (unfold Statement; decide)
  · unfold Statement; decide
  · unfold Statement; decide

theorem push (x : SeqReg) (c : Symbol) : Statement (.push x c) := by
  have h : c.setWidth 24 &&& (0xFFFF00 : BitVec 24) = 0 := by
    have e : (0xFFFF00 : BitVec 24) = (0xFFFF : BitVec 16) ++ (0 : BitVec 8) := by decide
    have e' : c.setWidth 24 = (0 : BitVec 16) ++ c := by
      rw [BitVec.setWidth_eq_append (by omega)]
      rfl
    rw [e, e', BitVec.and_append]
    simp
  have hm : mask (.push x c) = mkWord 0xF 0 0xFFFF00 := rfl
  unfold Statement
  rw [hm]
  show mkWord 0x2 x.sel (c.setWidth 24) &&& _ = _
  rw [mkWord_and, h, show x.sel &&& (0 : BitVec 4) = 0 by simp]
  rfl

theorem pushp (p : Position) : Statement (.pushp p) := by
  have hm : mask (.pushp p) = mkWord 0xF 0xF 0 := rfl
  unfold Statement
  rw [hm]
  show mkWord 0x3 0 p &&& _ = _
  rw [mkWord_and, show p &&& (0 : BitVec 24) = 0 by simp]
  rfl

theorem cfgw (f : CfgField) (v : BitVec 24) : Statement (.cfgw f v) := by
  have hm : mask (.cfgw f v) = mkWord 0xF 0 0 := rfl
  unfold Statement
  rw [hm]
  show mkWord 0x4 f.index v &&& _ = _
  rw [mkWord_and, show f.index &&& (0 : BitVec 4) = 0 by simp, show v &&& (0 : BitVec 24) = 0 by simp]
  rfl

theorem crc : Statement .crc := by unfold Statement; decide

theorem ham : Statement .ham := by unfold Statement; decide

theorem analyze : Statement .analyze := by unfold Statement; decide

theorem reset : Statement .reset := by unfold Statement; decide

end Sys2Proof.Laws.EncodingRow
end

