-- ==== Sys2Proof/Laws/Polynomial.lean ====
section
/-! SUPPORT. Bit sequences as polynomials over GF(2) (spec/20_memory.md R50, spec/40_crc_engine.md R104): what the empty
sequence, one more symbol, two sequences in a row and an XORed front stand for. -/

namespace Sys2Proof.Machine

open Polynomial

/-- The bit of an XOR is the sum of the bits in GF(2) (R13, R103). -/
theorem bit_xorSym (a b : Symbol) (ha : isBit a = true) (hb : isBit b = true) :
    ((bit (xorSym a b) : ℕ) : ZMod 2) = (bit a : ZMod 2) + (bit b : ZMod 2) := by
  rw [isBit_iff] at ha hb
  rcases ha with rfl | rfl <;> rcases hb with rfl | rfl <;> decide

/-- A sequence is the coefficient list of one polynomial only. -/
theorem IsPolynomialOf.unique {s : SymSeq} {P Q : (ZMod 2)[X]} (h : IsPolynomialOf s P)
    (h' : IsPolynomialOf s Q) : P = Q := by
  ext j
  rw [h j, h' j]

theorem isPolynomialOf_nil : IsPolynomialOf [] 0 := by
  intro j
  simp

/-- One more symbol on the left is one more leading coefficient. -/
theorem IsPolynomialOf.cons {s : SymSeq} {P : (ZMod 2)[X]} (h : IsPolynomialOf s P) (c : Symbol) :
    IsPolynomialOf (c :: s) (X ^ s.length * C ((bit c : ℕ) : ZMod 2) + P) := by
  intro j
  rw [coeff_add, h j, coeff_X_pow_mul', coeff_C, List.length_cons]
  rcases Nat.lt_trichotomy j s.length with hj | hj | hj
  · rw [if_neg (by omega), if_pos hj, if_pos (by omega), zero_add,
      show s.length + 1 - 1 - j = (s.length - 1 - j) + 1 by omega, List.getD_cons_succ]
  · subst hj
    rw [if_pos le_rfl, if_pos (by omega), if_neg (by omega), if_pos (by omega), add_zero,
      show s.length + 1 - 1 - s.length = 0 by omega, List.getD_cons_zero]
  · rw [if_pos (by omega), if_neg (by omega), if_neg (by omega), if_neg (by omega), add_zero]

/-- Every sequence is the coefficient list of a polynomial. -/
theorem exists_isPolynomialOf (s : SymSeq) : ∃ P, IsPolynomialOf s P := by
  induction s with
  | nil => exact ⟨0, isPolynomialOf_nil⟩
  | cons c s ih => exact ⟨_, ih.choose_spec.cons c⟩

/-- Two sequences in a row: the left one is shifted by the length of the right one. -/
theorem IsPolynomialOf.append {s t : SymSeq} {P Q : (ZMod 2)[X]} (h : IsPolynomialOf s P)
    (h' : IsPolynomialOf t Q) : IsPolynomialOf (s ++ t) (X ^ t.length * P + Q) := by
  induction s generalizing P with
  | nil =>
    rw [h.unique isPolynomialOf_nil]
    simpa using h'
  | cons c s ih =>
    obtain ⟨R, hR⟩ := exists_isPolynomialOf s
    have e := (ih hR).cons c
    rw [h.unique (hR.cons c)]
    rw [List.length_append] at e
    have k : X ^ t.length * (X ^ s.length * C ((bit c : ℕ) : ZMod 2) + R) + Q =
        X ^ (s.length + t.length) * C ((bit c : ℕ) : ZMod 2) + (X ^ t.length * R + Q) := by ring
    rw [k]
    exact e

/-- Zeros stand for the polynomial 0. -/
theorem isPolynomialOf_rep0 (n : Nat) : IsPolynomialOf (rep sym0 n) 0 := by
  induction n with
  | zero => exact isPolynomialOf_nil
  | succ n ih =>
    have e := ih.cons sym0
    have z : bit sym0 = 0 := rfl
    rw [z, Nat.cast_zero, C_0, mul_zero, add_zero] at e
    exact e

/-- Two bit sequences of one length with one polynomial are the same sequence. -/
theorem eq_of_isPolynomialOf {a b : SymSeq} {P : (ZMod 2)[X]} (ha : isBits a = true) (hb : isBits b = true)
    (hl : a.length = b.length) (h : IsPolynomialOf a P) (h' : IsPolynomialOf b P) : a = b := by
  apply List.ext_getElem hl
  intro i h1 h2
  have e := (h (a.length - 1 - i)).symm.trans (h' (a.length - 1 - i))
  rw [if_pos (by omega), if_pos (by omega), ← hl, show a.length - 1 - (a.length - 1 - i) = i by omega,
    List.getD_eq_getElem _ _ h1, List.getD_eq_getElem _ _ h2] at e
  have h1' := (isBits_iff _).1 ha _ (List.getElem_mem h1)
  have h2' := (isBits_iff _).1 hb _ (List.getElem_mem h2)
  rcases h1' with k | k <;> rcases h2' with k' | k' <;> rw [k, k'] at e ⊢ <;> exact absurd e (by decide)

/-- A front XORed with a shorter sequence: the shorter one is added, shifted to the front. -/
theorem IsPolynomialOf.xorFront {b p : SymSeq} {B P : (ZMod 2)[X]} (hb : isBits b = true)
    (hp : isBits p = true) (hl : p.length ≤ b.length) (h : IsPolynomialOf b B) (h' : IsPolynomialOf p P) :
    IsPolynomialOf (Sys2Proof.Machine.xorFront b p) (B + X ^ (b.length - p.length) * P) := by
  induction b generalizing p B P with
  | nil =>
    have e : p = [] := List.length_eq_zero_iff.1 (by simpa using hl)
    subst e
    rw [h'.unique isPolynomialOf_nil]
    simpa [Sys2Proof.Machine.xorFront] using h
  | cons x b ih =>
    cases p with
    | nil =>
      rw [h'.unique isPolynomialOf_nil]
      simpa [Sys2Proof.Machine.xorFront] using h
    | cons y p =>
      rw [isBits_cons] at hb hp
      rw [List.length_cons, List.length_cons] at hl
      obtain ⟨B', hB⟩ := exists_isPolynomialOf b
      obtain ⟨P', hP⟩ := exists_isPolynomialOf p
      have e := (ih hb.2 hp.2 (by omega) hB hP).cons (xorSym x y)
      rw [length_xorFront, bit_xorSym _ _ hb.1 hp.1, C_add] at e
      rw [h.unique (hB.cons x), h'.unique (hP.cons y)]
      have hs : Sys2Proof.Machine.xorFront (x :: b) (y :: p) =
          xorSym x y :: Sys2Proof.Machine.xorFront b p := rfl
      rw [hs]
      convert e using 1
      rw [List.length_cons, List.length_cons, show b.length + 1 - (p.length + 1) = b.length - p.length by omega]
      have hx : (X : (ZMod 2)[X]) ^ b.length = X ^ (b.length - p.length) * X ^ p.length := by
        rw [← pow_add]
        congr 1
        omega
      rw [hx]
      ring

end Sys2Proof.Machine
end

