-- ==== Sys2Proof/Laws/Safety.lean ====
section
/-! SUPPORT. What fits a store of the block, whatever its capacities are (spec/00_scope.md R10). -/

namespace Sys2Proof.Machine

theorem fits_mono (cap : Capacity) (a b : Nat) (h : a ≤ b) (hb : fits cap b) : fits cap a := by
  cases cap with
  | bounded m => exact le_trans h hb
  | unbounded => trivial

/-- 33 symbols fit every block (R10). -/
theorem fits_maxLen_of_le (n : Nat) (h : n ≤ 33) : fits Config.maxLen n := by
  cases hc : Config.maxLen with
  | bounded m => exact le_trans h (maxLen_bounded_ge m hc)
  | unbounded => trivial

/-- One position fits every block (R10). -/
theorem fits_maxPos_of_le (n : Nat) (h : n ≤ 1) : fits Config.maxPos n := by
  cases hc : Config.maxPos with
  | bounded m => exact le_trans h (maxPos_bounded_ge m hc)
  | unbounded => trivial

/-- A register of fewer than 33 symbols is not full (R10). -/
theorem maxLen_ne_bounded (n : Nat) (h : n < 33) : Config.maxLen ≠ .bounded n := by
  intro hc
  have := maxLen_bounded_ge n hc
  omega

/-- An empty position list is not full (R10). -/
theorem maxPos_ne_bounded_zero : Config.maxPos ≠ .bounded 0 := by
  intro hc
  have := maxPos_bounded_ge 0 hc
  omega

/-- A register that holds fewer than a number that fits is not full (R131, R132). -/
theorem isFull_eq_false_of_fits (cap : Capacity) (n m : Nat) (h : fits cap m) (hn : n < m) :
    isFull cap n = false := by
  cases cap with
  | bounded k =>
    have h' : m ≤ k := h
    rw [isFull, beq_eq_false_iff_ne]
    omega
  | unbounded => rfl

end Sys2Proof.Machine
end

