-- ==== Sys2Proof/Laws/Step.lean ====
section
/-! SUPPORT. What a step can do, said once: the three cases of the next input. -/

namespace Sys2Proof.Machine

theorem step_idle (s : State) (h : s.pending = []) : step s = .next s := by
  unfold step
  rw [h]

theorem step_hardReset (s : State) (rest : List HostInput) (h : s.pending = .hardReset :: rest) :
    step s = .next (resetRegs { s with pending := rest }) := by
  unfold step
  rw [h]

theorem step_illegal (s : State) (w : Word) (rest : List HostInput) (e : Illegal)
    (h : s.pending = .command w :: rest) (hd : decode w = .error e) :
    step s = .next (illegalWord { s with pending := rest }) := by
  unfold step
  rw [h]
  simp only [hd]

/-- A run of one step more, of any machine, when the first step answers `next`. -/
theorem machine_run_succ (M : Host.Core) (n : Nat) (s t : M.State) (h : M.step s = .next t) :
    M.run (n + 1) s = M.run n t := by
  rw [Host.Core.run, h]

/-- A run of one step more, when the first step answers `next`. -/
theorem run_succ (n : Nat) (s t : State) (h : step s = .next t) :
    Sys2Proof.core.run (n + 1) s = Sys2Proof.core.run n t :=
  machine_run_succ Sys2Proof.core n s t h

theorem run_zero (s : State) : Sys2Proof.core.run 0 s = .next s := rfl

/-- The next input of a state whose step answers `next`, and the state it leads to. -/
theorem step_cases (s t : State) (h : step s = .next t) :
    (s.pending = [] ∧ t = s) ∨
    (∃ rest, s.pending = .hardReset :: rest ∧ t = resetRegs { s with pending := rest }) ∨
    (∃ w rest i, s.pending = .command w :: rest ∧ decode w = .ok i ∧
      exec i { s with pending := rest } = .next t) ∨
    (∃ w rest e, s.pending = .command w :: rest ∧ decode w = .error e ∧
      t = illegalWord { s with pending := rest }) := by
  rcases hp : s.pending with _ | ⟨_ | _, rest⟩
  · left
    rw [step_idle s hp] at h
    exact ⟨rfl, (Host.Outcome.next.inj h).symm⟩
  · rename_i w
    cases hd : decode w with
    | ok i =>
      right; right; left
      refine ⟨w, rest, i, rfl, hd, ?_⟩
      unfold step at h
      rw [hp] at h
      simpa only [hd] using h
    | error e =>
      right; right; right
      rw [step_illegal s w rest e hp hd] at h
      exact ⟨w, rest, e, rfl, hd, (Host.Outcome.next.inj h).symm⟩
  · right; left
    rw [step_hardReset s rest hp] at h
    exact ⟨rest, rfl, (Host.Outcome.next.inj h).symm⟩

end Sys2Proof.Machine
end

