-- ==== Sys2Proof/Tests/Slice0.lean ====
section
/-! SUPPORT. Tests: expected results are the examples and vectors of spec/95_test_vectors.md and the words of
spec/30_encoding.md R80 (none comes from running this model). After them, a witness for the hypotheses of each statement. -/

namespace Sys2Proof.Machine.Tests

open Sys2Proof Sys2Proof.Machine

/-- The symbols of a string: one 8-bit character code each (R13). -/
def str (t : String) : SymSeq := t.toList.map (fun c => BitVec.ofNat 8 c.toNat)

/-- The next state of an outcome, if it is one. -/
def nextOf (o : Host.Outcome State Fault Refusal) : Option State :=
  match o with
  | .next t => some t
  | .fault _ => none
  | .refused _ => none

/-- The reset state with FRAME and POLY loaded. -/
def crcState (f p : String) : State := { State.reset with frame := str f, poly := str p }

/-- The reset state with OPA and OPB loaded. -/
def hamState (a b : String) : State := { State.reset with opa := str a, opb := str b }

/-- The state of vector V1 with its CRC done. -/
def afterV1 : State :=
  { crcState "1101011011" "10011" with crc := some (str "1110"), crck := some (str "01110") }

/-- The frame F33 of the vectors. -/
def f33 : String := "101100111000111100001111100000101"

/-- The frame F36 of the vectors. -/
def f36 : String := "101010101011001100110101111101011111"

/-- The polynomial CANP of the vectors. -/
def canp : String := "1100010110011001"

/-- What CRC leaves in CRC, CRCK and STATUS.ERR. -/
def crcResult (s : State) : Option (Result SymSeq × Result SymSeq × BitVec 4) :=
  (nextOf (exec .crc s)).map (fun t => (t.crc, t.crck, t.err))

/-- What HEX leaves in HEXR and STATUS.ERR. -/
def hexResult (x : HexReg) (s : State) : Option (Result SymSeq × BitVec 4) :=
  (nextOf (exec (.hex x) s)).map (fun t => (t.hexr, t.err))

/-- What HAM leaves in DIST and STATUS.ERR. -/
def hamResult (s : State) : Option (Result Nat × BitVec 4) :=
  (nextOf (exec .ham s)).map (fun t => (t.dist, t.err))

/-- What ANALYZE leaves in BASE, REPORT and STATUS.ERR. -/
def analyzeResult (s : State) : Option (Result Baseline × Result (List ReportRow) × BitVec 4) :=
  (nextOf (exec .analyze s)).map (fun t => (t.base, t.report, t.err))

/-! ### Well-formedness: the smoke test -/

theorem test_wf_refuses_slice_en_two : Instr.wf (.cfgw .sliceEn 2) = false := by decide
theorem test_wf_accepts_slice_en_one : Instr.wf (.cfgw .sliceEn 1) = true := by decide
theorem test_wf_accepts_widest_display : Instr.wf (.cfgw .dispW 16777215) = true := by decide
/-- K9: the ill-formed term's word is refused by the decoder too. -/
theorem test_decode_refuses_slice_en_two : decode 0x40000002 = .error .illegalValue := by decide

/-! ### Decoding: one word per constructor, its bits written out from R72 -/

theorem test_decode_clr : decode 0b00010100000000000000000000000000 = .ok (.clr .epos) := by decide
theorem test_decode_push : decode 0b00100001000000000000000000110001 = .ok (.push .poly 0x31) := by decide
theorem test_decode_pushp : decode 0b00110000000000000000000000001001 = .ok (.pushp 9) := by decide
theorem test_decode_cfgw : decode 0b01000001111111111111111111111111 = .ok (.cfgw .dispW 0xFFFFFF) := by decide
theorem test_decode_crc : decode 0b01010000000000000000000000000000 = .ok .crc := by decide
theorem test_decode_hex : decode 0b01100110000000000000000000000000 = .ok (.hex .crck) := by decide
theorem test_decode_ham : decode 0b01110000000000000000000000000000 = .ok .ham := by decide
theorem test_decode_analyze : decode 0b10000000000000000000000000000000 = .ok .analyze := by decide
theorem test_decode_reset : decode 0b10010000000000000000000000000000 = .ok .reset := by decide

/-- K10 to K21: the illegal words of the vectors. -/
theorem test_decode_illegal_words :
    decode 0x42000000 = .error .illegalSelector ∧ decode 0x00000000 = .error .unknownOpcode ∧
    decode 0xFFFFFFFF = .error .unknownOpcode ∧ decode 0xA0000000 = .error .unknownOpcode ∧
    decode 0x15000000 = .error .illegalSelector ∧ decode 0x10000001 = .error .immNotZero ∧
    decode 0x24000031 = .error .illegalSelector ∧ decode 0x20000131 = .error .immNotZero ∧
    decode 0x31000000 = .error .selNotZero ∧ decode 0x50000001 = .error .immNotZero ∧
    decode 0x51000000 = .error .selNotZero ∧ decode 0x64000000 = .error .illegalSelector ∧
    decode 0x67000000 = .error .illegalSelector ∧ decode 0x90000001 = .error .immNotZero := by decide

/-- The opcode table's numbering is the word's own: bit 0 is `w[0]`. -/
theorem test_decodeTableWord : decodeTableWord 32 0x21000031 = some (.push .poly 0x31) := by decide

/-! ### The assembler (R80, R81) -/

theorem test_assemble_load :
    assemble "LOAD POLY, \"101\"" = some [0x11000000, 0x21000031, 0x21000030, 0x21000031] := by decide
theorem test_assemble_loadp :
    assemble "LOADP [0, 34]" = some [0x14000000, 0x30000000, 0x30000022] := by decide
theorem test_assemble_refuses_illegal_operands :
    assemble "PUSH EPOS, '1'" = none ∧ assemble "HEX EPOS" = none ∧ assemble "CFGW SLICE_EN, 2" = none := by
  decide

/-! ### One step of each command -/

/-- K3. -/
theorem test_clr_poly : (nextOf (exec (.clr (.seq .poly)) afterV1)).map State.poly = some [] := by decide
/-- K5. -/
theorem test_clr_epos :
    (nextOf (exec (.clr .epos) { State.reset with epos := [0, 3] })).map State.epos = some [] := by decide

/-- K2: any symbol is accepted, and it becomes the last. -/
theorem test_push_appends :
    (pushSymbol .unbounded .frame 0x78 (crcState "110" "")).frame = str "110x" := by decide
/-- K22. -/
theorem test_push_overflow :
    pushSymbol (.bounded 33) .frame sym1 (crcState f33 "") = { crcState f33 "" with err := 5 } := by decide

/-- K4. -/
theorem test_pushp_appends :
    (pushPosition .unbounded 9 { State.reset with epos := [0, 3] }).epos = [0, 3, 9] := by decide
/-- K23. -/
theorem test_pushp_overflow :
    pushPosition (.bounded 1) 2 { State.reset with epos := [1] } =
      { State.reset with epos := [1], err := 5 } := by decide

/-- K6. -/
theorem test_cfgw_slice_en :
    nextOf (exec (.cfgw .sliceEn 0) State.reset) = some { State.reset with sliceEn := 0 } := by decide
/-- K8. -/
theorem test_cfgw_disp_w :
    nextOf (exec (.cfgw .dispW 0xFFFFFF) State.reset) = some { State.reset with dispW := 0xFFFFFF } := by decide

/-- S1, the document's known vector (V1). -/
theorem test_crc_known_vector :
    crcResult (crcState "1101011011" "10011") = some (some (str "1110"), some (str "01110"), 0) := by decide
/-- V15: a sliced frame of 33 bits with a 15-bit CRC. -/
theorem test_crc_sliced :
    crcResult (crcState f33 canp) =
      some (some (str "111100011010010"), some (str "0111100011010010"), 0) := by decide

/-- X5. -/
theorem test_hex_literal : hexResult (.seq .opa) (hamState "00011111" "") = some (some (str "0x1f"), 0) := by
  decide
/-- X13. -/
theorem test_hex_of_result : hexResult .crck afterV1 = some (some (str "0xe"), 0) := by decide

/-- H1. -/
theorem test_ham_distance : hamResult (hamState "10110" "10011") = some (some 2, 0) := by decide
/-- H7: the non-binary symbol is found before the length. -/
theorem test_ham_first_error : hamResult (hamState "1x1" "10") = some (none, 2) := by decide

/-- A3: three rows against a baseline of the CRC's own width. -/
theorem test_analyze_rows :
    analyzeResult { crcState "1101011011" "10011" with epos := [0, 3, 9, 10], dispW := 0 } =
      some (some { crc := str "1110", dist := 0 },
        some [{ pos := 0, cframe := str "0101011011", ccrc := str "0011", dist := 3 },
          { pos := 3, cframe := str "1100011011", ccrc := str "1001", dist := 3 },
          { pos := 9, cframe := str "1101011010", ccrc := str "1101", dist := 2 }], 0) := by decide
/-- A7: the sliced frame; a flip of the delimiter is not seen. -/
theorem test_analyze_sliced :
    (analyzeResult { crcState f33 "10011" with epos := [32, 16], dispW := 4 }).map
        (fun r => (r.1, r.2.1.map (List.map (fun w => (w.ccrc, w.dist))))) =
      some (some { crc := str "0111", dist := 0 }, some [(str "0111", 0), (str "0100", 2)]) := by decide

/-- K29. -/
theorem test_reset : nextOf (exec .reset afterV1) = some State.reset := by decide

/-- K30: an illegal word makes nothing invalid. -/
theorem test_step_illegal_word :
    nextOf (step { afterV1 with pending := [.command 0] }) = some { afterV1 with err := 6 } := by decide
/-- K31: the old CRC is lost when CRC fails. -/
theorem test_step_error_loses_the_result :
    nextOf (step { afterV1 with poly := [], pending := [.command 0x50000000] }) =
      some { afterV1 with poly := [], crc := none, crck := none, err := 1 } := by decide
/-- The word that `withFetchWord` places is the one the next step runs. -/
theorem test_withFetchWord :
    nextOf (step (State.reset.withFetchWord 32 0x70000000)) = some { State.reset with dist := some 0 } := by
  decide

/-! ### Witnesses: each meets all the hypotheses of the statement it is named after

A statement without hypotheses has none. -/

/-- A state in which every result register is valid (V1, X12, H1, A3). -/
def fullState : State :=
  { afterV1 with
    opa := str "10110", opb := str "10011", epos := [9], dispW := 0, hexr := some (str "0xe"), dist := some 2,
    base := some { crc := str "1110", dist := 0 },
    report := some [{ pos := 9, cframe := str "1101011010", ccrc := str "1101", dist := 2 }] }

theorem fullState_legal (q : List HostInput) : Legal { fullState with pending := q } where
  seq_fits x := fits_maxLen_of_le _ (show (getSeq x fullState).length ≤ 33 by cases x <;> decide)
  epos_fits := fits_maxPos_of_le _ (show fullState.epos.length ≤ 1 by decide)
  crc_pair := ⟨by decide, by decide, by decide, fits_maxLen_of_le _ (by decide)⟩
  hexr_literal h hh := by
    obtain rfl := Option.some.inj hh
    refine ⟨str "e", by decide, by decide, by decide, ?_⟩
    cases hc : Config.maxLen with
    | bounded m =>
      have := maxLen_bounded_ge m hc
      have h1 : (str "e").length = 1 := by decide
      show (str "e").length ≤ (m + 3) / 4
      omega
    | unbounded => trivial
  dist_fits d hd := by
    obtain rfl := Option.some.inj hd
    exact fits_maxLen_of_le _ (by decide)
  report_pair := by
    refine ⟨rfl, by decide, by decide, fits_maxPos_of_le _ (by decide), str "1101011011", ?_⟩
    intro r hr
    obtain rfl := List.mem_singleton.1 hr
    exact ⟨by decide, by decide, fits_maxLen_of_le _ (by decide), by decide, by decide, by decide, by decide⟩
  err_named := show fullState.err.toNat ≤ 7 by decide

theorem witness_DecodeOfEncode : Instr.wf (.cfgw .sliceEn 1) = true := by decide

theorem witness_EncodeOfDecode : decode 0x41FFFFFF = .ok (.cfgw .dispW 0xFFFFFF) := by decide

/-- The first and the last opcode of each range that selects no command. -/
theorem witness_CommandTableByMaskAndMatch :
    (opField 0x0FFFFFFF = 0x0 ∨ 0xA ≤ (opField 0x0FFFFFFF).toNat) ∧
    (opField 0xA0000000 = 0x0 ∨ 0xA ≤ (opField 0xA0000000).toNat) ∧
    (opField 0xF0000000 = 0x0 ∨ 0xA ≤ (opField 0xF0000000).toNat) := by decide

/-- One word per clause of R77, at a boundary of the clause. -/
theorem witness_IllegalWordsRaiseIllegalCommand :
    (IllegalByR77 0x00000000 ∧ IllegalByR77 0xA0000000 ∧ IllegalByR77 0xFFFFFFFF ∧ IllegalByR77 0x51000000 ∧
      IllegalByR77 0x70000001 ∧ IllegalByR77 0x31000000 ∧ IllegalByR77 0x10000001 ∧ IllegalByR77 0x60800000) ∧
    (IllegalByR77 0x20000100 ∧ IllegalByR77 0x15000000 ∧ IllegalByR77 0x24000000 ∧ IllegalByR77 0x64000000 ∧
      IllegalByR77 0x67000000 ∧ IllegalByR77 0x42000000 ∧ IllegalByR77 0x40000002) ∧
    ({ afterV1 with pending := [.command 0] } : State).pending = .command 0 :: [] := by
  unfold IllegalByR77
  refine ⟨⟨?_, ?_, ?_, ?_, ?_, ?_, ?_, ?_⟩, ⟨?_, ?_, ?_, ?_, ?_, ?_, ?_⟩, rfl⟩ <;> decide

theorem witness_StepRunsTheDecodedCommand :
    ({ afterV1 with pending := [.command 0x65000000, .hardReset] } : State).pending =
      .command 0x65000000 :: [.hardReset] ∧
    decode 0x65000000 = .ok (.hex .crc) := by decide

theorem witness_HardwareResetAndIdleSteps :
    ({ afterV1 with pending := [.hardReset] } : State).pending = .hardReset :: [] ∧ afterV1.pending = [] := by
  decide

theorem witness_RunEndsWithTheLastInput :
    ({ afterV1 with pending := [.hardReset] } : State).pending.length ≤ 1 := by decide

theorem witness_ResetValues : nextOf (exec .reset fullState) = some State.reset := by decide

theorem witness_EveryStepKeepsLegal :
    ∃ t, Legal { fullState with pending := [.command 0x65000000] } ∧
      step { fullState with pending := [.command 0x65000000] } = .next t :=
  ⟨_, fullState_legal _, rfl⟩

theorem witness_ValidityFlags : Legal fullState ∧ vcrc fullState = true ∧ vrep fullState = true :=
  ⟨fullState_legal [], by decide, by decide⟩

theorem witness_InvalidResultsHaveNoValue :
    (State.reset.crc = none ∧ State.reset.crck = none ∧ State.reset.hexr = none ∧ State.reset.dist = none ∧
      State.reset.base = none ∧ State.reset.report = none) ∧
    fullState.crc = some (str "1110") ∧ fullState.crck = some (str "01110") ∧
    fullState.hexr = some (str "0xe") ∧ fullState.dist = some 2 ∧
    fullState.base = some { crc := str "1110", dist := 0 } ∧
    fullState.report =
      some [{ pos := 9, cframe := str "1101011010", ccrc := str "1101", dist := 2 }] := by decide

/-- A register that is not full whatever MAXLEN is, one that holds its bound of 33, and one that holds one less. -/
theorem witness_PushAppendsOneSymbol :
    Config.maxLen ≠ .bounded (getSeq .frame State.reset).length ∧
    (getSeq .frame (crcState f33 "")).length = 33 ∧
    (getSeq .poly (crcState f33 canp)).length ≠ 17 :=
  ⟨maxLen_ne_bounded 0 (by decide), by decide, by decide⟩

theorem witness_PushpAppendsOnePosition :
    Config.maxPos ≠ .bounded State.reset.epos.length ∧ fullState.epos.length = 1 ∧
    State.reset.epos.length ≠ 1 :=
  ⟨maxPos_ne_bounded_zero, by decide, by decide⟩

/-- The longest string and list that fit every block, and the empty ones. -/
theorem witness_LoadReplacesTheOperand :
    (fits Config.maxLen (str f33).length ∧
      ({ fullState with pending := issue (expandLoad .opa (str f33)) } : State).pending =
        issue (expandLoad .opa (str f33)) ++ []) ∧
    (fits Config.maxLen (str "").length ∧
      ({ fullState with pending := issue (expandLoad .opa (str "")) } : State).pending =
        issue (expandLoad .opa (str "")) ++ []) ∧
    (fits Config.maxPos [0xFFFFFF#24].length ∧
      ({ fullState with pending := issue (expandLoadp [0xFFFFFF#24]) } : State).pending =
        issue (expandLoadp [0xFFFFFF#24]) ++ []) :=
  ⟨⟨fits_maxLen_of_le _ (by decide), by decide⟩, ⟨fits_maxLen_of_le _ (by decide), by decide⟩,
    ⟨fits_maxPos_of_le _ (by decide), by decide⟩⟩

theorem witness_StripDropsTheLeadingZeros : isBits (str "0010110") = true ∧ isBits (str "000") = true := by decide

theorem witness_PadExtendsOnTheLeft :
    4 ≤ (str "1110").length ∧ 0 < max (str "1110").length 5 - (str "1110").length := by decide

/-- Both ends of a sequence, one with each symbol. -/
theorem witness_FlipChangesOneSymbol :
    isBits (str "10110") = true ∧ 0 < (str "10110").length ∧ 4 < (str "10110").length ∧
    (str "10110")[4]? = some sym0 ∧ (str "10110")[0]? = some sym1 := by decide

/-- The frames of 32 and of 33 bits, with slicing on and off. -/
theorem witness_SlicerDropsTheDelimiter :
    State.reset.sliceEn = 1 ∧ 32 < (str f33).length ∧ ((str f33).take 32).length ≤ 32 ∧
    ({ State.reset with sliceEn := 0 } : State).sliceEn = 0 := by decide

/-- A valid divisor of the least length. -/
theorem validDivisor_least : ValidDivisor (str "11") := by
  unfold ValidDivisor
  decide

theorem validDivisor_known : ValidDivisor (str "10011") := by
  unfold ValidDivisor
  decide

/-- A pivot that holds `'0'`, one that holds `'1'`, and the last one (the trace of S1). -/
theorem witness_DivisionPivotByPivot :
    str "1101011011" ≠ [] ∧ ValidDivisor (str "10011") ∧ 9 < (str "1101011011").length ∧
    (divideTo (str "1101011011") (str "10011") 9)[9]? ≠ some sym1 ∧
    (divideTo (str "1101011011") (str "10011") 8)[8]? = some sym1 ∧
    ValidDivisor (str "11") :=
  ⟨by decide, validDivisor_known, by decide, by decide, by decide, validDivisor_least⟩

theorem witness_DivisionClearsItsPivots :
    isBits (str "1") = true ∧ str "1" ≠ [] ∧ ValidDivisor (str "11") ∧ 1 ≤ (str "1").length ∧
    isBits (str "10") = true ∧ str "10" ≠ [] :=
  ⟨by decide, by decide, validDivisor_least, by decide, by decide, by decide⟩

/-- V31, V32, V27, V29 and V6: each clause in turn, the polynomials of one and of two bits among them. -/
theorem witness_CrcCommand :
    (isBits (crcState "11x1" "10011").poly = false ∨ isBits (crcState "11x1" "10011").frame = false) ∧
    (isBits (crcState "1101" "1 011").poly = false ∨ isBits (crcState "1101" "1 011").frame = false) ∧
    (isBits (str "0001") = true ∧ isBits (str "1101011011") = true ∧ (strip (str "0001")).length < 2) ∧
    (isBits (str "10011") = true ∧ isBits (str "") = true ∧ 2 ≤ (strip (str "10011")).length ∧
      (str "").length = 0) ∧
    (isBits (str "10") = true ∧ isBits (str "1101") = true ∧ 2 ≤ (strip (str "10")).length ∧
      (str "1101").length ≠ 0) := by decide

theorem validCrcOperands_known : ValidCrcOperands (str "1101011011") (str "10011") := by
  unfold ValidCrcOperands
  decide

theorem validCrcOperands_sliced : ValidCrcOperands (str f36) (str canp) := by
  unfold ValidCrcOperands
  decide

theorem witness_CrcResultLengths :
    ValidCrcOperands (crcState "1101011011" "10011").frame (crcState "1101011011" "10011").poly :=
  validCrcOperands_known

theorem witness_CrcDependsOnItsOperandsOnly :
    afterV1.frame = fullState.frame ∧ afterV1.poly = fullState.poly ∧ afterV1.sliceEn = fullState.sliceEn ∧
    afterV1 ≠ fullState := by decide

/-- `1 * x` divided by `x + 1` leaves 1. -/
theorem witness_CrcIsThePolynomialRemainder :
    ∃ W G R : Polynomial (ZMod 2), isBits (str "1") = true ∧ str "1" ≠ [] ∧ ValidDivisor (str "11") ∧
      IsPolynomialOf (str "1") W ∧ IsPolynomialOf (str "11") G ∧
      IsPolynomialOf (remainder (str "1") (str "11")) R :=
  ⟨_, _, _, by decide, by decide, validDivisor_least, (exists_isPolynomialOf _).choose_spec,
    (exists_isPolynomialOf _).choose_spec, (exists_isPolynomialOf _).choose_spec⟩

theorem witness_RemainderIsLinear :
    isBits (str "1101011011") = true ∧ isBits (str "0000000001") = true ∧ str "1101011011" ≠ [] ∧
    (str "1101011011").length = (str "0000000001").length ∧ ValidDivisor (str "10011") :=
  ⟨by decide, by decide, by decide, by decide, validDivisor_known⟩

/-- Frames where zeros change no slicing: with slicing off, up to 32 bits in all, and from 33 bits on. -/
theorem witness_LeadingZerosChangeNothing :
    (isBits (str "1101011011") = true ∧ str "1101011011" ≠ [] ∧ ValidDivisor (str "10011")) ∧
    ((crcState "1101011011" "10011").frame ≠ [] ∧
      22 + (crcState "1101011011" "10011").frame.length ≤ 32) ∧
    ((crcState f33 "10011").frame ≠ [] ∧ 32 < (crcState f33 "10011").frame.length) ∧
    ({ crcState f33 "10011" with sliceEn := 0 } : State).sliceEn = 0 :=
  ⟨⟨by decide, by decide, validDivisor_known⟩, by decide, by decide, by decide⟩

/-- V21, and V18 with its 20 data bits; then 17 data bits, the fewest with which such a frame is sliced. -/
theorem witness_AppendedRemainderDividesToZero :
    (isBits (str "1101011011") = true ∧ str "1101011011" ≠ [] ∧ ValidDivisor (str "10011")) ∧
    ((crcState f36 canp).sliceEn = 1 ∧ isBits (str "10101010101100110011") = true ∧ isBit sym1 = true ∧
      17 ≤ (str "10101010101100110011").length ∧ isBits (crcState f36 canp).poly = true ∧
      (strip (crcState f36 canp).poly).length = 16 ∧
      (crcState f36 canp).frame =
        str "10101010101100110011" ++
          remainder (str "10101010101100110011") (strip (crcState f36 canp).poly) ++ [sym1]) ∧
    17 ≤ ((str "10101010101100110011").take 17).length :=
  ⟨⟨by decide, by decide, validDivisor_known⟩, by decide, by decide⟩

/-- 32 bits before the delimiter, the fewest with which a frame is sliced. -/
theorem witness_SlicedCrcIgnoresTheDelimiter :
    State.reset.sliceEn = 1 ∧ 32 ≤ ((str f33).take 32).length ∧ isBit sym0 = true ∧ isBit sym1 = true := by decide

/-- Both cases of the literal's first digit. -/
theorem witness_HexLiteralOfANumber :
    (15 : Nat) ≠ 0 ∧ (0 : Nat) = 0 ∧ 0 < (str "f").length := by decide

/-- X11, X9, X8 and X13. -/
theorem witness_HexCommand :
    hexSource .crc State.reset = none ∧
    (hexSource (.seq .opa) (hamState "10 1" "") = some (str "10 1") ∧ isBits (str "10 1") = false) ∧
    (hexSource (.seq .opa) State.reset = some [] ∧ isBits [] = true ∧ ([] : SymSeq).length = 0) ∧
    (hexSource .crck afterV1 = some (str "01110") ∧ isBits (str "01110") = true ∧
      (str "01110").length ≠ 0) := by decide

theorem witness_HammingCountsTheDifferences : (str "10110").length = (str "10011").length := by decide

theorem witness_HammingLaws :
    (str "10110").length = (str "10011").length ∧ isBits (str "10110") = true ∧ isBits (str "10011") = true := by
  decide

/-- H8, H6 and H3. -/
theorem witness_HamCommand :
    (isBits (hamState "1x1" "101").opa = false ∨ isBits (hamState "1x1" "101").opb = false) ∧
    (isBits (hamState "" "1").opa = true ∧ isBits (hamState "" "1").opb = true ∧
      (hamState "" "1").opa.length ≠ (hamState "" "1").opb.length) ∧
    (isBits (hamState "" "").opa = true ∧ isBits (hamState "" "").opb = true ∧
      (hamState "" "").opa.length = (hamState "" "").opb.length) := by decide

/-- V31, A8 (both), and A1. -/
theorem witness_AnalyzeCommand :
    (isBits (crcState "11x1" "10011").poly = false ∨ isBits (crcState "11x1" "10011").frame = false) ∧
    (isBits (str "0") = true ∧ isBits (str "1101011011") = true ∧ (strip (str "0")).length < 2) ∧
    (isBits (str "10011") = true ∧ isBits (str "") = true ∧ 2 ≤ (strip (str "10011")).length ∧
      (str "").length = 0) ∧
    ValidCrcOperands fullState.frame fullState.poly :=
  ⟨by decide, by decide, by decide, validCrcOperands_known⟩

/-- A2: the last index of the frame, and two positions beyond it. -/
theorem witness_SkippedPositionsLeaveNoTrace :
    ValidCrcOperands fullState.frame fullState.poly ∧
    ((nextOf (exec .analyze { fullState with epos := [9, 10, 15] })).bind State.report).map List.length = some 1 :=
  ⟨validCrcOperands_known, by decide⟩

theorem witness_AnalyzeLengthsAgree :
    (nextOf (exec .analyze fullState)).map (fun t => (t.base.isSome, t.report.isSome)) = some (true, true) := by
  decide

theorem witness_DistancesIgnoreTheDisplayWidth : ValidCrcOperands fullState.frame fullState.poly :=
  validCrcOperands_known

/-- A5: the row at the last index of a sliced frame. -/
theorem witness_DelimiterFlipIsUndetected :
    ValidCrcOperands (crcState f36 canp).frame (crcState f36 canp).poly ∧ (crcState f36 canp).sliceEn = 1 ∧
    32 < (crcState f36 canp).frame.length ∧
    ((nextOf (exec .analyze { crcState f36 canp with epos := [35] })).bind State.report).map
      (List.map (fun r => r.pos.toNat)) = some [(crcState f36 canp).frame.length - 1] :=
  ⟨validCrcOperands_sliced, by decide, by decide, by decide⟩

/-- A1 with two ones or more in the polynomial, at the first and the last index of a frame that is not sliced; A5 at the
last index the slicer keeps; A6 with one `'1'`. -/
theorem witness_SingleFlipDetection :
    ValidCrcOperands (crcState "1101011011" "10011").frame (crcState "1101011011" "10011").poly ∧
    ((nextOf (exec .analyze { crcState "1101011011" "10011" with epos := [0, 9] })).bind State.report).map
      (List.map (fun r => decide (r.pos.toNat < (work (str "1101011011") 1).length))) = some [true, true] ∧
    ValidCrcOperands (crcState f36 canp).frame (crcState f36 canp).poly ∧
    ((nextOf (exec .analyze { crcState f36 canp with epos := [34] })).bind State.report).map
      (List.map (fun r => r.pos.toNat)) = some [34] ∧
    (work (str f36) 1).length = 34 + 1 ∧
    ValidCrcOperands (crcState "1011" "100").frame (crcState "1011" "100").poly ∧
    (strip (crcState "1011" "100").poly).count sym1 = 1 :=
  ⟨validCrcOperands_known, by decide, validCrcOperands_sliced, by decide, by decide,
    by unfold ValidCrcOperands; decide, by decide⟩

/-- Operands that fit every block, one for each of the four functions. -/
theorem witness_DocumentFunctionsAsCommandSequences :
    fits Config.maxLen (str "1101011011").length ∧ fits Config.maxLen (str "10011").length ∧
    fits Config.maxPos [9#24].length ∧
    ({ fullState with pending := issue (expandLoad .frame (str "1101011011") ++
      expandLoad .poly (str "10011") ++ [.crc]) ++ [.hardReset] } : State).pending =
      issue (expandLoad .frame (str "1101011011") ++ expandLoad .poly (str "10011") ++ [.crc]) ++ [.hardReset] ∧
    ({ fullState with pending := issue (expandLoad .opa (str "1110") ++ [.hex (.seq .opa)]) ++ [] } :
      State).pending = issue (expandLoad .opa (str "1110") ++ [.hex (.seq .opa)]) ++ [] ∧
    ({ fullState with pending := issue (expandLoad .opa (str "101") ++ expandLoad .opb (str "10") ++
      [.ham]) ++ [] } : State).pending =
      issue (expandLoad .opa (str "101") ++ expandLoad .opb (str "10") ++ [.ham]) ++ [] ∧
    ({ fullState with pending := issue (expandLoad .frame (str "1101011011") ++ expandLoad .poly (str "10011") ++
      expandLoadp [9] ++ [.analyze]) ++ [] } : State).pending =
      issue (expandLoad .frame (str "1101011011") ++ expandLoad .poly (str "10011") ++ expandLoadp [9] ++
        [.analyze]) ++ [] :=
  ⟨fits_maxLen_of_le _ (by decide), fits_maxLen_of_le _ (by decide), fits_maxPos_of_le _ (by decide), rfl, rfl,
    rfl, rfl⟩

/-- An error of a command of each group, and of an illegal word. -/
theorem witness_ErrorEffect :
    ((nextOf (exec .crc State.reset)).map State.err = some 1 ∧
      (nextOf (exec (.hex .crc) State.reset)).map State.err = some 7 ∧
      (nextOf (exec .ham (hamState "101" "10"))).map State.err = some 3 ∧
      (nextOf (exec .analyze State.reset)).map State.err = some 1 ∧ owns .crc = some .crc ∧
      owns (.hex .crc) = some .hex ∧ owns .ham = some .ham ∧ owns .analyze = some .analyze) ∧
    ({ afterV1 with pending := [.command 0xFFFFFFFF] } : State).pending = .command 0xFFFFFFFF :: [] ∧
    (∀ i, decode 0xFFFFFFFF ≠ .ok i) := by
  refine ⟨by decide, by decide, fun i h => ?_⟩
  have e : decode 0xFFFFFFFF = .error .unknownOpcode := by decide
  rw [e] at h
  cases h

theorem witness_SuccessLeavesValidResults : owns .crc = some .crc ∧ owns .analyze = some .analyze := by decide

/-- Every code a command can raise on some state that needs no choice of MAXLEN (K24, V31, H5, K26, K27). -/
theorem witness_ErrorCodesAndCauses :
    (nextOf (exec .crc State.reset)).map State.err = some 1 ∧
    (nextOf (exec .crc (crcState "11x1" "10011"))).map State.err = some 2 ∧
    (nextOf (exec .ham (hamState "101" "10"))).map State.err = some 3 ∧
    (nextOf (exec (.hex (.seq .frame)) State.reset)).map State.err = some 4 ∧
    (nextOf (exec (.hex .crc) State.reset)).map State.err = some 7 ∧
    ({ afterV1 with pending := [.command 0] } : State).pending = .command 0 :: [] ∧
    decode 0 = .error .unknownOpcode := by decide

theorem witness_ErrorsDoNotAlterLaterCommands :
    ({ afterV1 with pending := [.command 0x50000000] } : State).pending ≠ [] := by decide

theorem witness_OperationsKeepTheirOperands :
    (∃ t, exec .analyze fullState = .next t) ∧
    ∃ t, exec (.clr (.seq .poly)) afterV1 = .next t ∧ ¬ SameOperands afterV1 t := by
  refine ⟨⟨_, rfl⟩, _, rfl, ?_⟩
  unfold SameOperands
  decide

theorem witness_StaleResultsStay :
    (∃ t, exec .ham fullState = .next t ∧ Instr.ham ≠ .reset ∧ owns .ham ≠ some .crc ∧ owns .ham ≠ some .hex ∧
      owns .ham ≠ some .analyze) ∧
    (∃ t, exec .crc fullState = .next t ∧ owns .crc ≠ some .ham) ∧
    ∃ t, exec (.cfgw .sliceEn 0) fullState = .next t :=
  ⟨⟨_, rfl, by decide, by decide, by decide, by decide⟩, ⟨_, rfl, by decide⟩, _, rfl⟩

theorem witness_NoHiddenState :
    ({ afterV1 with pending := [] } : State) =
      { ({ afterV1 with pending := [.command 0x90000000] } : State) with pending := [] } := by decide

theorem witness_HostReadsEveryRegister :
    State.reset.sliceEn = 1 ∧ ({ State.reset with sliceEn := 0 } : State).sliceEn = 0 := by decide

end Sys2Proof.Machine.Tests
end

section
/-! PROOFS. The notation of spec/00_scope.md: what `pad` (R17), `flipAt` (R18) and `value` (R19) give. -/

namespace Sys2Proof.Machine

/-! ### pad (R17) -/

/-- A sequence of the width or longer is not padded, and not truncated. -/
theorem pad_of_le_length (x : SymSeq) (w : Nat) (h : w ≤ x.length) : pad x w = x := by
  have hn : max x.length w - x.length = 0 := by omega
  rw [pad, hn]
  rfl

/-- The padding holds `'0'` at each of its indexes. -/
theorem pad_getElem?_padding (x : SymSeq) (w j : Nat) (h : j < max x.length w - x.length) :
    (pad x w)[j]? = some sym0 := by
  rw [pad, List.getElem?_append_left (by rwa [length_rep])]
  exact List.getElem?_replicate_of_lt h

/-- After the padding comes the sequence itself. -/
theorem pad_getElem?_content (x : SymSeq) (w j : Nat) :
    (pad x w)[max x.length w - x.length + j]? = x[j]? := by
  rw [pad, List.getElem?_append_right (by rw [length_rep]; exact Nat.le_add_right _ _), length_rep,
    Nat.add_sub_cancel_left]

/-- Settles O22, from the symbols of the padding and of the content. -/
theorem padExtendsOnTheLeft : Obligations.PadExtendsOnTheLeft := by
  unfold Obligations.PadExtendsOnTheLeft
  intro x w
  exact ⟨length_pad x w, pad_of_le_length x w, pad_getElem?_padding x w, pad_getElem?_content x w⟩

/-! ### flip (R18) -/

@[simp] theorem flipSym_sym0 : flipSym sym0 = sym1 := by decide

@[simp] theorem flipSym_sym1 : flipSym sym1 = sym0 := by decide

/-- The symbol at the flipped index is the flipped symbol. -/
theorem flipAt_getElem?_self (s : SymSeq) (p : Nat) (c : Symbol) (h : s[p]? = some c) :
    (flipAt s p)[p]? = some (flipSym c) := by
  rw [flip_getElem?, if_pos rfl, h, Option.map_some]

/-- Every other index keeps its symbol. -/
theorem flipAt_getElem?_of_ne (s : SymSeq) (p j : Nat) (h : j ≠ p) : (flipAt s p)[j]? = s[j]? := by
  rw [flip_getElem?, if_neg h]

/-- Settles O23, by the two kinds of index: the flipped one, whose symbol `flipSym` exchanges, and the others. -/
theorem flipChangesOneSymbol : Obligations.FlipChangesOneSymbol := by
  unfold Obligations.FlipChangesOneSymbol
  intro s p _ _
  refine ⟨length_flip s p, fun h0 => ?_, fun h1 => ?_, flipAt_getElem?_of_ne s p⟩
  · rw [flipAt_getElem?_self s p sym0 h0, flipSym_sym0]
  · rw [flipAt_getElem?_self s p sym1 h1, flipSym_sym1]

/-! ### value (R19) -/

/-- `value` is R19's sum: a symbol put on the left adds the term of index 0 and moves every other term one index on, with
its power of two unchanged. -/
theorem value_eq_sum (s : SymSeq) :
    value s = ∑ i ∈ Finset.range s.length, bit (s.getD i sym0) * 2 ^ (s.length - 1 - i) := by
  induction s with
  | nil => rfl
  | cons c s ih =>
    have hexp (i : Nat) : s.length - 1 - i = s.length - (i + 1) := by omega
    rw [value_cons, ih, List.length_cons, Finset.sum_range_succ', Nat.add_comm]
    simp only [List.getD_cons_succ, List.getD_cons_zero, hexp, Nat.add_sub_cancel, Nat.sub_zero]

/-- Settles O24, from R19's sum; the empty sequence has no bits to add. -/
theorem valueIsTheBinaryNumber : Obligations.ValueIsTheBinaryNumber := by
  unfold Obligations.ValueIsTheBinaryNumber
  exact ⟨value_eq_sum, rfl⟩

end Sys2Proof.Machine
end

section
/-! PROOFS. The commands, each by the outcome of its function: with a condition that decides the outcome, the next state.
-/

namespace Sys2Proof.Machine

section
variable {s : State} {e : ErrorKind}

/-! ### CLR, PUSH, PUSHP, CFGW and RESET (R130 to R134) -/

theorem exec_clr (x : ClrReg) (s : State) : exec (.clr x) s = .next (succeed (seqClear x s)) := rfl

theorem exec_push_of_full (x : SeqReg) (c : Symbol) (h : isFull Config.maxLen (getSeq x s).length = true) :
    exec (.push x c) s = .next (raise none .overflow s) := by
  rw [exec, execPush, pushSymbol, if_pos h]

theorem exec_push_of_not_full (x : SeqReg) (c : Symbol) (h : isFull Config.maxLen (getSeq x s).length = false) :
    exec (.push x c) s = .next (succeed (seqAppend x c s)) := by
  rw [exec, execPush, pushSymbol, if_neg (ne_true_of_eq_false h)]

theorem exec_pushp_of_full (p : Position) (h : isFull Config.maxPos s.epos.length = true) :
    exec (.pushp p) s = .next (raise none .overflow s) := by
  rw [exec, execPushp, pushPosition, if_pos h]

theorem exec_pushp_of_not_full (p : Position) (h : isFull Config.maxPos s.epos.length = false) :
    exec (.pushp p) s = .next (succeed (setEpos (s.epos ++ [p]) s)) := by
  rw [exec, execPushp, pushPosition, if_neg (ne_true_of_eq_false h)]

theorem exec_cfgw (f : CfgField) (v : BitVec 24) (s : State) :
    exec (.cfgw f v) s = .next (succeed (writeCfg f v s)) := rfl

theorem exec_reset (s : State) : exec .reset s = .next { State.reset with pending := s.pending } := rfl

/-! ### CRC and HEX (R95, R101) -/

theorem exec_crc_of_error (h : computeCrc s.sliceEn s.frame s.poly = .error e) :
    exec .crc s = .next (raise (some .crc) e s) := by
  simp only [exec, execCrc, h]

theorem exec_crc_of_ok {r : SymSeq × SymSeq} (h : computeCrc s.sliceEn s.frame s.poly = .ok r) :
    exec .crc s = .next (succeed (setCrc r.1 r.2 s)) := by
  simp only [exec, execCrc, h]

theorem exec_hex_of_invalid {x : HexReg} (h : hexSource x s = none) :
    exec (.hex x) s = .next (raise (some .hex) .invalidSource s) := by
  simp only [exec, execHex, h]

theorem exec_hex_of_error {x : HexReg} {b : SymSeq} (hx : hexSource x s = some b)
    (h : binaryToHex b = .error e) : exec (.hex x) s = .next (raise (some .hex) e s) := by
  simp only [exec, execHex, hx, h]

theorem exec_hex_of_ok {x : HexReg} {b r : SymSeq} (hx : hexSource x s = some b) (h : binaryToHex b = .ok r) :
    exec (.hex x) s = .next (succeed (setHexr r s)) := by
  simp only [exec, execHex, hx, h]

/-! ### HAM and ANALYZE (R113, R120) -/

theorem exec_ham_of_error (h : hammingDistance s.opa s.opb = .error e) :
    exec .ham s = .next (raise (some .ham) e s) := by
  simp only [exec, execHam, h]

theorem exec_ham_of_ok {d : Nat} (h : hammingDistance s.opa s.opb = .ok d) :
    exec .ham s = .next (succeed (setDist d s)) := by
  simp only [exec, execHam, h]

theorem exec_analyze_of_error
    (h : analyzeErrors s.sliceEn s.dispW.toNat s.frame s.poly s.epos = .error e) :
    exec .analyze s = .next (raise (some .analyze) e s) := by
  simp only [exec, execAnalyze, h]

theorem exec_analyze_of_ok {r : Baseline × List ReportRow}
    (h : analyzeErrors s.sliceEn s.dispW.toNat s.frame s.poly s.epos = .ok r) :
    exec .analyze s = .next (succeed (setReport r.1 r.2 s)) := by
  simp only [exec, execAnalyze, h]

end

end Sys2Proof.Machine
end

section
/-! PROOFS. The state (spec/10_state.md): reset (R41), the host's reads of results (R37), the frame of the operations (R23),
skipped positions (R28), and no hidden state (R40). -/

namespace Sys2Proof.Machine

/-! ### Skipped positions (R28) -/

/-- On operands that pass every check `analyze_errors` answers the baseline and the rows (R120). -/
theorem analyzeErrors_of_valid {f p : SymSeq} (en : BitVec 1) (w : Nat) (ps : List Position)
    (h : ValidCrcOperands f p) :
    analyzeErrors en w f p ps = .ok ({ crc := paddedCrc en w p f, dist := 0 }, analysisRows en w f p ps) := by
  have hok : crcOperandError f p = none := (crcOperandError_eq_none f p).mpr h
  simp only [analyzeErrors, hok]

theorem exec_analyze_of_valid (s : State) (h : ValidCrcOperands s.frame s.poly) :
    exec .analyze s = .next (succeed (setReport
      { crc := paddedCrc s.sliceEn s.dispW.toNat s.poly s.frame, dist := 0 }
      (analysisRows s.sliceEn s.dispW.toNat s.frame s.poly s.epos) s)) :=
  exec_analyze_of_ok (analyzeErrors_of_valid _ _ _ h)

/-- One row for each position within the frame (R118). -/
theorem length_analysisRows (en : BitVec 1) (w : Nat) (f p : SymSeq) (ps : List Position) :
    (analysisRows en w f p ps).length = (ps.filter (fun q => decide (q.toNat < f.length))).length := by
  rw [analysisRows_eq, List.length_map]

/-- Rows are missing exactly when some position is beyond the frame. -/
theorem length_analysisRows_lt_iff (en : BitVec 1) (w : Nat) (f p : SymSeq) (ps : List Position) :
    (analysisRows en w f p ps).length < ps.length ↔ ∃ q ∈ ps, f.length ≤ q.toNat := by
  rw [length_analysisRows, List.length_filter_lt_length_iff_exists]
  simp only [decide_eq_true_eq, Nat.not_lt]

/-- Taking the positions beyond the frame out of the list leaves the same rows. -/
theorem analysisRows_filter_in_range (en : BitVec 1) (w : Nat) (f p : SymSeq) (ps : List Position) :
    analysisRows en w f p (ps.filter (fun q => decide (q.toNat < f.length))) = analysisRows en w f p ps := by
  rw [analysisRows_eq, analysisRows_eq, List.filter_filter]
  simp only [Bool.and_self]

/-- Settles O42: ANALYZE succeeds on both position lists, with the rows of the positions within the frame. -/
theorem skippedPositionsLeaveNoTrace : Obligations.SkippedPositionsLeaveNoTrace := by
  unfold Obligations.SkippedPositionsLeaveNoTrace
  intro s h
  have hfew : (analysisRows s.sliceEn s.dispW.toNat s.frame s.poly s.epos).length ≤ s.epos.length := by
    rw [length_analysisRows]
    exact List.length_filter_le _ _
  refine ⟨_, _, _, exec_analyze_of_valid s h, rfl, rfl, hfew, length_analysisRows_lt_iff _ _ _ _ _, rfl,
    exec_analyze_of_valid { s with epos := s.epos.filter _ } h, rfl, ?_, rfl⟩
  exact congrArg some (analysisRows_filter_in_range _ _ _ _ _)

/-! ### Operations keep their operands (R23) -/

/-- A successful operation writes its results and STATUS.ERR and nothing else. -/
theorem Succeeded.operation_same {i : Instr} {s t : State} (h : Succeeded i s t)
    (hi : i = .crc ∨ (∃ x, i = .hex x) ∨ i = .ham ∨ i = .analyze) :
    SameOperands s t ∧ SameConfig s t ∧ t.pending = s.pending := by
  rcases hi with rfl | ⟨x, rfl⟩ | rfl | rfl
  case inl =>
    obtain ⟨c, ck, rfl⟩ := h
    exact ⟨⟨rfl, rfl, rfl, rfl, rfl⟩, ⟨rfl, rfl⟩, rfl⟩
  case inr.inl =>
    obtain ⟨r, rfl⟩ := h
    exact ⟨⟨rfl, rfl, rfl, rfl, rfl⟩, ⟨rfl, rfl⟩, rfl⟩
  case inr.inr.inl =>
    obtain ⟨d, rfl⟩ := h
    exact ⟨⟨rfl, rfl, rfl, rfl, rfl⟩, ⟨rfl, rfl⟩, rfl⟩
  case inr.inr.inr =>
    obtain ⟨b, rows, rfl⟩ := h
    exact ⟨⟨rfl, rfl, rfl, rfl, rfl⟩, ⟨rfl, rfl⟩, rfl⟩

/-- An operation, whether it succeeds or raises an error, keeps the operands, the configuration and the inputs. -/
theorem exec_operation_same {i : Instr} {s t : State} (h : exec i s = .next t)
    (hi : i = .crc ∨ (∃ x, i = .hex x) ∨ i = .ham ∨ i = .analyze) :
    SameOperands s t ∧ SameConfig s t ∧ t.pending = s.pending := by
  rcases exec_cases h with ⟨e, rfl⟩ | hs
  · exact raise_same _ e s
  · exact hs.operation_same hi

/-- The configuration write keeps the operands (R133). -/
theorem writeCfg_sameOperands (f : CfgField) (v : BitVec 24) (s : State) : SameOperands s (writeCfg f v s) := by
  cases f <;> exact ⟨rfl, rfl, rfl, rfl, rfl⟩

/-- CFGW keeps the operands. -/
theorem exec_cfgw_sameOperands {f : CfgField} {v : BitVec 24} {s t : State} (h : exec (.cfgw f v) s = .next t) :
    SameOperands s t := by
  rw [exec_cfgw] at h
  obtain rfl := Host.Outcome.next.inj h
  exact writeCfg_sameOperands f v s

/-- Settles O52: the operations by `exec_operation_same`; of the commands that are left, only CFGW is not named, and it
keeps the operands. -/
theorem operationsKeepTheirOperands : Obligations.OperationsKeepTheirOperands := by
  unfold Obligations.OperationsKeepTheirOperands
  refine ⟨fun i s t h hi => exec_operation_same h hi, fun i s t h hne => ?_⟩
  have not_operation : ¬ (i = .crc ∨ (∃ x, i = .hex x) ∨ i = .ham ∨ i = .analyze) :=
    fun hi => hne (exec_operation_same h hi).1
  cases i with
  | clr x => exact .inl ⟨x, rfl⟩
  | push x c => exact .inr (.inl ⟨x, c, rfl⟩)
  | pushp p => exact .inr (.inr (.inl ⟨p, rfl⟩))
  | cfgw f v => exact absurd (exec_cfgw_sameOperands h) hne
  | crc => exact absurd (.inl rfl) not_operation
  | hex x => exact absurd (.inr (.inl ⟨x, rfl⟩)) not_operation
  | ham => exact absurd (.inr (.inr (.inl rfl))) not_operation
  | analyze => exact absurd (.inr (.inr (.inr rfl))) not_operation
  | reset => exact .inr (.inr (.inr rfl))

/-! ### No hidden state (R40) -/

section
variable (s : State) (q : List HostInput)

theorem getSeq_withPending (x : SeqReg) : getSeq x { s with pending := q } = getSeq x s := by cases x <;> rfl

theorem setSeq_withPending (x : SeqReg) (v : SymSeq) :
    setSeq x v { s with pending := q } = { setSeq x v s with pending := q } := by cases x <;> rfl

theorem seqClear_withPending (x : ClrReg) :
    seqClear x { s with pending := q } = { seqClear x s with pending := q } := by
  cases x with
  | seq r => exact setSeq_withPending s q r []
  | epos => rfl

theorem seqAppend_withPending (x : SeqReg) (c : Symbol) :
    seqAppend x c { s with pending := q } = { seqAppend x c s with pending := q } := by
  rw [seqAppend, getSeq_withPending, setSeq_withPending]
  rfl

theorem writeCfg_withPending (f : CfgField) (v : BitVec 24) :
    writeCfg f v { s with pending := q } = { writeCfg f v s with pending := q } := by cases f <;> rfl

theorem hexSource_withPending (x : HexReg) : hexSource x { s with pending := q } = hexSource x s := by
  cases x with
  | seq r => exact congrArg some (getSeq_withPending s q r)
  | crc => rfl
  | crck => rfl

/-- Every command ends, and it neither reads nor writes the inputs still to come: with other inputs it leaves the same
registers. -/
theorem exec_withPending (i : Instr) :
    ∃ t, exec i s = .next t ∧ exec i { s with pending := q } = .next { t with pending := q } := by
  cases i with
  | clr x => exact ⟨_, exec_clr x s, by rw [exec_clr, seqClear_withPending]; rfl⟩
  | push x c =>
    cases h : isFull Config.maxLen (getSeq x s).length with
    | true => exact ⟨_, exec_push_of_full x c h, exec_push_of_full x c (by rwa [getSeq_withPending])⟩
    | false =>
      refine ⟨_, exec_push_of_not_full x c h, ?_⟩
      rw [exec_push_of_not_full x c (by rwa [getSeq_withPending]), seqAppend_withPending]
      rfl
  | pushp p =>
    cases h : isFull Config.maxPos s.epos.length with
    | true => exact ⟨_, exec_pushp_of_full p h, exec_pushp_of_full p h⟩
    | false => exact ⟨_, exec_pushp_of_not_full p h, exec_pushp_of_not_full p h⟩
  | cfgw f v => exact ⟨_, exec_cfgw f v s, by rw [exec_cfgw, writeCfg_withPending]; rfl⟩
  | crc =>
    cases h : computeCrc s.sliceEn s.frame s.poly with
    | error e => exact ⟨_, exec_crc_of_error h, exec_crc_of_error h⟩
    | ok r => exact ⟨_, exec_crc_of_ok h, exec_crc_of_ok h⟩
  | hex x =>
    have hq := hexSource_withPending s q x
    cases hx : hexSource x s with
    | none => exact ⟨_, exec_hex_of_invalid hx, exec_hex_of_invalid (hq.trans hx)⟩
    | some b =>
      cases h : binaryToHex b with
      | error e => exact ⟨_, exec_hex_of_error hx h, exec_hex_of_error (hq.trans hx) h⟩
      | ok r => exact ⟨_, exec_hex_of_ok hx h, exec_hex_of_ok (hq.trans hx) h⟩
  | ham =>
    cases h : hammingDistance s.opa s.opb with
    | error e => exact ⟨_, exec_ham_of_error h, exec_ham_of_error h⟩
    | ok d => exact ⟨_, exec_ham_of_ok h, exec_ham_of_ok h⟩
  | analyze =>
    cases h : analyzeErrors s.sliceEn s.dispW.toNat s.frame s.poly s.epos with
    | error e => exact ⟨_, exec_analyze_of_error h, exec_analyze_of_error h⟩
    | ok r => exact ⟨_, exec_analyze_of_ok h, exec_analyze_of_ok h⟩
  | reset => exact ⟨_, exec_reset s, exec_reset _⟩

end

/-- Settles O54: both commands leave the registers that the command leaves with no inputs to come. -/
theorem noHiddenState : Obligations.NoHiddenState := by
  unfold Obligations.NoHiddenState
  intro i s t hst
  obtain ⟨u, hu, hu'⟩ := exec_withPending s [] i
  obtain ⟨v, hv, hv'⟩ := exec_withPending t [] i
  rw [hst, hv'] at hu'
  exact ⟨u, v, hu, hv, (Host.Outcome.next.inj hu').symm⟩

/-! ### Reset (R41, R134) -/

/-- Settles O11: RESET leaves the reset state but for the inputs still to come, and no value named reads them. -/
theorem resetValues : Obligations.ResetValues := by
  unfold Obligations.ResetValues
  refine ⟨by decide, fun s => ⟨_, exec_reset s, fun u hu => ?_⟩⟩
  obtain ⟨q, rfl⟩ : ∃ q, u = { State.reset with pending := q } := by
    rcases hu with rfl | rfl
    · exact ⟨s.pending, rfl⟩
    · exact ⟨[], rfl⟩
  and_intros <;> rfl

/-! ### Invalid results (R37) -/

theorem readResult_of_none {α : Type} {r : Result α} (wrap : α → HostValue) (h : r = none) :
    readResult wrap r = .error .noValue := by rw [h, readResult]

theorem readResult_of_some {α : Type} {r : Result α} {v : α} (wrap : α → HostValue) (h : r = some v) :
    readResult wrap r = .ok (wrap v) := by rw [h, readResult]

section
variable {s : State}

theorem readReg_vcrc_of_invalid (h : s.crc = none ∨ s.crck = none) : readReg .vcrc s = .ok (.bit false) := by
  rcases h with h | h <;> simp [readReg, vcrc, h]

theorem readReg_vhex_of_invalid (h : s.hexr = none) : readReg .vhex s = .ok (.bit false) := by
  simp [readReg, vhex, h]

theorem readReg_vdist_of_invalid (h : s.dist = none) : readReg .vdist s = .ok (.bit false) := by
  simp [readReg, vdist, h]

theorem readReg_vrep_of_invalid (h : s.base = none ∨ s.report = none) : readReg .vrep s = .ok (.bit false) := by
  rcases h with h | h <;> simp [readReg, vrep, h]

end

/-- Settles O15: the reads by `readResult` of an invalid and of a valid register, the V flags by the pair they are computed
from, HEX by its invalid source. -/
theorem invalidResultsHaveNoValue : Obligations.InvalidResultsHaveNoValue := by
  unfold Obligations.InvalidResultsHaveNoValue
  intro s
  exact ⟨
    fun h => ⟨readResult_of_none _ h, readReg_vcrc_of_invalid (.inl h), exec_hex_of_invalid h⟩,
    fun h => ⟨readResult_of_none _ h, readReg_vcrc_of_invalid (.inr h), exec_hex_of_invalid h⟩,
    fun h => ⟨readResult_of_none _ h, readReg_vhex_of_invalid h⟩,
    fun h => ⟨readResult_of_none _ h, readReg_vdist_of_invalid h⟩,
    fun h => ⟨readResult_of_none _ h, readReg_vrep_of_invalid (.inl h)⟩,
    fun h => ⟨readResult_of_none _ h, readReg_vrep_of_invalid (.inr h)⟩,
    fun _ h => readResult_of_some _ h,
    fun _ h => readResult_of_some _ h,
    fun _ h => readResult_of_some _ h,
    fun _ h => readResult_of_some _ h,
    fun _ h => readResult_of_some _ h,
    fun _ h => readResult_of_some _ h⟩

end Sys2Proof.Machine
end

section
/-! PROOFS. The encoding (spec/30_encoding.md): which words decode to which command (R72 to R75), and which to none
(R77). -/

namespace Sys2Proof.Machine

section
variable {w : Word} {i : Instr}

/-! ### The one word of each command -/

/-- A well-formed command's word decodes to it. -/
theorem decode_encode (h : i.wf = true) : decode (encode i) = .ok i := by
  cases i with
  | clr x => exact (decode_mkWord _ _ _).trans ((decodeClr_eq_ok _ _ _).mpr ⟨rfl, x, rfl, rfl⟩)
  | push x c => exact (decode_mkWord _ _ _).trans ((decodePush_eq_ok _ _ _).mpr ⟨x, c, rfl, rfl, rfl⟩)
  | pushp p => exact (decode_mkWord _ _ _).trans ((decodePushp_eq_ok _ _ _).mpr ⟨rfl, rfl⟩)
  | cfgw f v => exact (decode_mkWord _ _ _).trans ((decodeCfgw_eq_ok _ _ _).mpr ⟨f, rfl, h, rfl⟩)
  | hex x => exact (decode_mkWord _ _ _).trans ((decodeHex_eq_ok _ _ _).mpr ⟨rfl, x, rfl, rfl⟩)
  | crc | ham | analyze | reset =>
    exact (decode_mkWord _ _ _).trans ((decodeZ_eq_ok _ _ _ _).mpr ⟨rfl, rfl, rfl⟩)

/-- A word that decodes to a command is that command's word, and the command is well formed: the opcode selects the row,
and what the row accepts gives the other two fields. -/
theorem eq_encode_of_decode (h : decode w = .ok i) : i.wf = true ∧ w = encode i := by
  rw [← mkWord_fields w] at h ⊢
  generalize opField w = op, selField w = sel, immField w = imm at h ⊢
  have word_eq {n : Nat} (hop : op.toNat = n % 2 ^ 4) : mkWord op sel imm = mkWord (BitVec.ofNat 4 n) sel imm :=
    congrArg (mkWord · sel imm) (BitVec.eq_of_toNat_eq hop)
  rw [decode_mkWord] at h
  split at h
  case h_1 hop =>
    obtain ⟨rfl, x, rfl, rfl⟩ := (decodeClr_eq_ok _ _ _).mp h
    exact ⟨rfl, word_eq hop⟩
  case h_2 hop =>
    obtain ⟨x, c, rfl, rfl, rfl⟩ := (decodePush_eq_ok _ _ _).mp h
    exact ⟨rfl, word_eq hop⟩
  case h_3 hop =>
    obtain ⟨rfl, rfl⟩ := (decodePushp_eq_ok _ _ _).mp h
    exact ⟨rfl, word_eq hop⟩
  case h_4 hop =>
    obtain ⟨f, rfl, hf, rfl⟩ := (decodeCfgw_eq_ok _ _ _).mp h
    exact ⟨hf, word_eq hop⟩
  case h_6 hop =>
    obtain ⟨rfl, x, rfl, rfl⟩ := (decodeHex_eq_ok _ _ _).mp h
    exact ⟨rfl, word_eq hop⟩
  case h_5 hop | h_7 hop | h_8 hop | h_9 hop =>
    obtain ⟨rfl, rfl, rfl⟩ := (decodeZ_eq_ok _ _ _ _).mp h
    exact ⟨rfl, word_eq hop⟩
  case h_10 => cases h

/-- A word decodes to a command exactly when it is that command's word and the command has legal operands. -/
theorem decode_eq_ok_iff : decode w = .ok i ↔ i.wf = true ∧ w = encode i := by
  refine ⟨eq_encode_of_decode, ?_⟩
  rintro ⟨hwf, rfl⟩
  exact decode_encode hwf

theorem decode_eq_ok_iff_of_wf (h : i.wf = true) : decode w = .ok i ↔ w = encode i := by
  rw [decode_eq_ok_iff, h, eq_self, true_and]

end

/-! ### The words by selector and immediate (R73 to R75) -/

/-- The symbol of PUSH stands in the low 8 bits of its word (R75). -/
theorem encode_push (x : SeqReg) (c : Symbol) : encode (.push x c) = mkWord 0x2 x.sel 0 ||| c.setWidth 32 := by
  rw [encode, mkWord_split, BitVec.setWidth_setWidth (by decide)]

/-- The position of PUSHP stands in the low 24 bits of its word (R75). -/
theorem encode_pushp (p : Position) : encode (.pushp p) = mkWord 0x3 0 0 ||| p.setWidth 32 := mkWord_split _ _ _

/-- The value of CFGW stands in the low 24 bits of its word (R75). -/
theorem encode_cfgw (f : CfgField) (v : BitVec 24) :
    encode (.cfgw f v) = mkWord 0x4 f.index 0 ||| v.setWidth 32 := mkWord_split _ _ _

theorem wf_cfgw_sliceEn (v : BitVec 24) : (Instr.cfgw .sliceEn v).wf = true ↔ v.toNat ≤ 1 := decide_eq_true_iff

section
variable (w : Word)

theorem decode_eq_push_iff (x : SeqReg) (c : Symbol) :
    decode w = .ok (.push x c) ↔ w = mkWord 0x2 x.sel 0 ||| c.setWidth 32 := by
  rw [decode_eq_ok_iff_of_wf rfl, encode_push]

theorem decode_eq_pushp_iff (p : Position) : decode w = .ok (.pushp p) ↔ w = mkWord 0x3 0 0 ||| p.setWidth 32 := by
  rw [decode_eq_ok_iff_of_wf rfl, encode_pushp]

theorem decode_eq_cfgw_sliceEn_iff (v : BitVec 24) :
    decode w = .ok (.cfgw .sliceEn v) ↔ w = mkWord 0x4 0 0 ||| v.setWidth 32 ∧ v.toNat ≤ 1 := by
  rw [decode_eq_ok_iff, wf_cfgw_sliceEn, encode_cfgw, and_comm, CfgField.index]

theorem decode_eq_cfgw_dispW_iff (v : BitVec 24) :
    decode w = .ok (.cfgw .dispW v) ↔ w = mkWord 0x4 1 0 ||| v.setWidth 32 := by
  rw [decode_eq_ok_iff_of_wf rfl, encode_cfgw, CfgField.index]

end

/-- Settles O5: each word is the one of its command; of the commands named, only CFGW of SLICE_EN has a condition. -/
theorem selectorsAndImmediates : Obligations.SelectorsAndImmediates := by
  unfold Obligations.SelectorsAndImmediates
  intro w
  exact ⟨decode_eq_ok_iff_of_wf rfl, decode_eq_ok_iff_of_wf rfl, decode_eq_ok_iff_of_wf rfl,
    decode_eq_ok_iff_of_wf rfl, decode_eq_ok_iff_of_wf rfl,
    fun c => ⟨decode_eq_push_iff w .frame c, decode_eq_push_iff w .poly c, decode_eq_push_iff w .opa c,
      decode_eq_push_iff w .opb c⟩,
    decode_eq_pushp_iff w,
    fun v => ⟨decode_eq_cfgw_sliceEn_iff w v, decode_eq_cfgw_dispW_iff w v⟩,
    decode_eq_ok_iff_of_wf rfl, decode_eq_ok_iff_of_wf rfl, decode_eq_ok_iff_of_wf rfl,
    decode_eq_ok_iff_of_wf rfl, decode_eq_ok_iff_of_wf rfl, decode_eq_ok_iff_of_wf rfl⟩

/-! ### The nine rows by opcode, selector and immediate (R72) -/

theorem exists_eq_seqReg_sel_iff (sel : BitVec 4) : (∃ x : SeqReg, sel = x.sel) ↔ sel.toNat ≤ 3 := by
  simp only [← seqReg?_eq_some, ← Option.isSome_iff_exists]
  revert sel
  decide

theorem exists_eq_clrReg_sel_iff (sel : BitVec 4) : (∃ x : ClrReg, sel = x.sel) ↔ sel.toNat ≤ 4 := by
  simp only [← clrReg?_eq_some, ← Option.isSome_iff_exists]
  revert sel
  decide

theorem exists_eq_hexReg_sel_iff (sel : BitVec 4) :
    (∃ x : HexReg, sel = x.sel) ↔ sel.toNat ∈ ([0, 1, 2, 3, 5, 6] : List Nat) := by
  simp only [← hexReg?_eq_some, ← Option.isSome_iff_exists]
  revert sel
  decide

/-- A selector names a field and the value is legal for it, as R72 says it for CFGW. -/
theorem exists_eq_index_and_legalValue_iff (sel : BitVec 4) (v : BitVec 24) :
    (∃ f : CfgField, sel = f.index ∧ f.legalValue v = true) ↔ sel.toNat ≤ 1 ∧ (sel = 0 → v.toNat ≤ 1) := by
  constructor
  · rintro ⟨_ | _, rfl, hv⟩
    · exact ⟨by decide, fun _ => decide_eq_true_iff.mp hv⟩
    · exact ⟨by decide, fun h => absurd h (by decide)⟩
  · rintro ⟨hsel, hv⟩
    obtain rfl | rfl : sel = 0 ∨ sel = 1 := by bv_omega
    · exact ⟨.sliceEn, rfl, decide_eq_true_iff.mpr (hv rfl)⟩
    · exact ⟨.dispW, rfl, rfl⟩

/-- An immediate holds a symbol exactly when its high part is 0 (R71). -/
theorem exists_imm_eq_symbol_iff (imm : BitVec 24) :
    (∃ c : Symbol, imm = c.setWidth 24) ↔ imm.extractLsb' 8 16 = 0 := by
  constructor
  · rintro ⟨c, rfl⟩
    exact (symbol_of_imm c).2
  · exact fun h => ⟨_, (imm_of_symbol imm h).symm⟩

section
variable (w : Word)

/-- A word is told by its three fields (R70). -/
theorem eq_mkWord_iff (op sel : BitVec 4) (imm : BitVec 24) :
    w = mkWord op sel imm ↔ opField w = op ∧ selField w = sel ∧ immField w = imm := by
  rw [← mkWord_inj, mkWord_fields]

theorem exists_decode_eq_clr_iff :
    (∃ x, decode w = .ok (.clr x)) ↔ opField w = 0x1 ∧ immField w = 0 ∧ (selField w).toNat ≤ 4 := by
  simp only [decode_eq_ok_iff_of_wf (i := .clr _) rfl, encode, eq_mkWord_iff, exists_and_left,
    exists_eq_clrReg_sel_iff, and_comm]

theorem exists_decode_eq_push_iff :
    (∃ x c, decode w = .ok (.push x c)) ↔
      opField w = 0x2 ∧ (immField w).extractLsb' 8 16 = 0 ∧ (selField w).toNat ≤ 3 := by
  simp only [decode_eq_ok_iff_of_wf (i := .push _ _) rfl, encode, eq_mkWord_iff, exists_and_left, exists_and_right,
    exists_eq_seqReg_sel_iff, exists_imm_eq_symbol_iff, and_comm]

theorem exists_decode_eq_pushp_iff : (∃ p, decode w = .ok (.pushp p)) ↔ opField w = 0x3 ∧ selField w = 0 := by
  simp only [decode_eq_ok_iff_of_wf (i := .pushp _) rfl, encode, eq_mkWord_iff, exists_and_left, exists_eq', and_true]

theorem exists_decode_eq_cfgw_iff :
    (∃ f v, decode w = .ok (.cfgw f v)) ↔
      opField w = 0x4 ∧ (selField w).toNat ≤ 1 ∧ (selField w = 0 → (immField w).toNat ≤ 1) := by
  rw [← exists_eq_index_and_legalValue_iff]
  simp only [decode_eq_ok_iff, encode, eq_mkWord_iff, Instr.wf]
  constructor
  · rintro ⟨f, v, hv, hop, hsel, rfl⟩
    exact ⟨hop, f, hsel, hv⟩
  · rintro ⟨hop, f, hsel, hv⟩
    exact ⟨f, _, hv, hop, hsel, rfl⟩

theorem exists_decode_eq_hex_iff :
    (∃ x, decode w = .ok (.hex x)) ↔
      opField w = 0x6 ∧ immField w = 0 ∧ (selField w).toNat ∈ ([0, 1, 2, 3, 5, 6] : List Nat) := by
  simp only [decode_eq_ok_iff_of_wf (i := .hex _) rfl, encode, eq_mkWord_iff, exists_and_left,
    exists_eq_hexReg_sel_iff, and_comm]

/-- The fields of a command of format Z (R71). -/
theorem decode_eq_ok_iff_of_formatZ {i : Instr} {op : BitVec 4} (hwf : i.wf = true) (hi : encode i = mkWord op 0 0) :
    decode w = .ok i ↔ opField w = op ∧ selField w = 0 ∧ immField w = 0 := by
  rw [decode_eq_ok_iff_of_wf hwf, hi, eq_mkWord_iff]

end

/-! ### The illegal words (R77) -/

/-- The selectors of HEX, as R72 lists them and as R77 leaves them. -/
theorem hexSelector_iff (sel : BitVec 4) :
    sel.toNat ∈ ([0, 1, 2, 3, 5, 6] : List Nat) ↔ sel ≠ 4 ∧ sel.toNat < 7 := by
  revert sel
  decide

theorem opcode_cases (op : BitVec 4) (h0 : op ≠ 0) (hA : op.toNat < 0xA) :
    op = 0x1 ∨ op = 0x2 ∨ op = 0x3 ∨ op = 0x4 ∨ op = 0x5 ∨ op = 0x6 ∨ op = 0x7 ∨ op = 0x8 ∨ op = 0x9 := by
  revert op
  decide

section
variable {w : Word}

/-- No clause of R77 names a word that decodes to a command. -/
theorem not_illegalByR77_of_decode {i : Instr} (hd : decode w = .ok i) : ¬ IllegalByR77 w := by
  cases i with
  | clr x =>
    obtain ⟨hop, himm, hsel⟩ := (exists_decode_eq_clr_iff w).mp ⟨x, hd⟩
    simp [IllegalByR77, hop, himm, Nat.lt_succ_iff, hsel]
  | push x c =>
    obtain ⟨hop, himm, hsel⟩ := (exists_decode_eq_push_iff w).mp ⟨x, c, hd⟩
    simp [IllegalByR77, hop, himm, Nat.lt_succ_iff, hsel]
  | pushp p =>
    obtain ⟨hop, hsel⟩ := (exists_decode_eq_pushp_iff w).mp ⟨p, hd⟩
    simp [IllegalByR77, hop, hsel]
  | cfgw f v =>
    obtain ⟨hop, hsel, himm⟩ := (exists_decode_eq_cfgw_iff w).mp ⟨f, v, hd⟩
    simpa [IllegalByR77, hop, Nat.lt_succ_iff, hsel] using himm
  | hex x =>
    obtain ⟨hop, himm, hsel⟩ := (exists_decode_eq_hex_iff w).mp ⟨x, hd⟩
    simpa [IllegalByR77, hop, himm] using (hexSelector_iff _).mp hsel
  | crc | ham | analyze | reset =>
    obtain ⟨hop, hsel, himm⟩ := (decode_eq_ok_iff_of_formatZ w rfl rfl).mp hd
    simp [IllegalByR77, hop, himm, hsel]

/-- A word that no clause of R77 names falls under the row of its opcode. -/
theorem exists_decode_of_not_illegalByR77 (h : ¬ IllegalByR77 w) : ∃ i, decode w = .ok i := by
  simp only [IllegalByR77, not_or, not_and, not_not, not_le, not_lt] at h
  obtain ⟨⟨hop0, hopA⟩, hz, hpushp, hs, hsc, hclr, hpush, hhex, hcfgw, hval⟩ := h
  rcases opcode_cases _ hop0 hopA with hop | hop | hop | hop | hop | hop | hop | hop | hop
  · obtain ⟨x, hd⟩ := (exists_decode_eq_clr_iff w).mpr ⟨hop, hs (.inl hop), Nat.lt_succ_iff.mp (hclr hop)⟩
    exact ⟨_, hd⟩
  · obtain ⟨x, c, hd⟩ := (exists_decode_eq_push_iff w).mpr ⟨hop, hsc hop, Nat.lt_succ_iff.mp (hpush hop)⟩
    exact ⟨_, hd⟩
  · obtain ⟨p, hd⟩ := (exists_decode_eq_pushp_iff w).mpr ⟨hop, hpushp hop⟩
    exact ⟨_, hd⟩
  · obtain ⟨f, v, hd⟩ := (exists_decode_eq_cfgw_iff w).mpr ⟨hop, Nat.lt_succ_iff.mp (hcfgw hop), hval hop⟩
    exact ⟨_, hd⟩
  · exact ⟨.crc, (decode_eq_ok_iff_of_formatZ w rfl rfl).mpr ⟨hop, hz (.inl hop)⟩⟩
  · obtain ⟨x, hd⟩ := (exists_decode_eq_hex_iff w).mpr ⟨hop, hs (.inr hop), (hexSelector_iff _).mpr (hhex hop)⟩
    exact ⟨_, hd⟩
  · exact ⟨.ham, (decode_eq_ok_iff_of_formatZ w rfl rfl).mpr ⟨hop, hz (.inr (.inl hop))⟩⟩
  · exact ⟨.analyze, (decode_eq_ok_iff_of_formatZ w rfl rfl).mpr ⟨hop, hz (.inr (.inr (.inl hop)))⟩⟩
  · exact ⟨.reset, (decode_eq_ok_iff_of_formatZ w rfl rfl).mpr ⟨hop, hz (.inr (.inr (.inr hop)))⟩⟩

/-- R77 names exactly the words that decode to no command. -/
theorem illegalByR77_iff : IllegalByR77 w ↔ ∀ i, decode w ≠ .ok i := by
  refine ⟨fun h i hd => not_illegalByR77_of_decode hd h, fun h => ?_⟩
  by_contra hlegal
  obtain ⟨i, hd⟩ := exists_decode_of_not_illegalByR77 hlegal
  exact h i hd

/-- An illegal word gives STATUS.ERR the code of IllegalCommand and changes nothing else (R77, R157). -/
theorem step_illegalByR77 {s : State} {rest : List HostInput} (hp : s.pending = .command w :: rest)
    (h : IllegalByR77 w) : step s = .next { s with err := 6, pending := rest } := by
  cases hd : decode w with
  | ok i => exact absurd hd (illegalByR77_iff.mp h i)
  | error e => exact step_illegal s w rest e hp hd

end

/-- Settles O6: the clauses of R77 leave exactly the rows of R72, and the step of an illegal word raises the error. -/
theorem illegalWordsRaiseIllegalCommand : Obligations.IllegalWordsRaiseIllegalCommand := by
  unfold Obligations.IllegalWordsRaiseIllegalCommand
  exact ⟨fun _ => illegalByR77_iff, .inl (.inl (by decide)), .inl (.inr (by decide)),
    fun _ _ _ => step_illegalByR77⟩

/-! ### The masks of the five formats (R71, R72) -/

section
variable (w : Word)

/-- Masking a word, field by field. -/
theorem and_mkWord_eq_iff (mop msel op sel : BitVec 4) (mimm imm : BitVec 24) :
    w &&& mkWord mop msel mimm = mkWord op sel imm ↔
      opField w &&& mop = op ∧ selField w &&& msel = sel ∧ immField w &&& mimm = imm := by
  rw [← mkWord_inj, ← mkWord_and, mkWord_fields]

theorem and_maskZ_eq_iff (op : BitVec 4) : w &&& 0xFFFFFFFF = mkWord op 0 0 ↔ w = mkWord op 0 0 := by
  rw [show (0xFFFFFFFF : Word) = BitVec.allOnes 32 from rfl, BitVec.and_allOnes]

theorem and_maskS_eq_iff (op : BitVec 4) :
    w &&& 0xF0FFFFFF = mkWord op 0 0 ↔ opField w = op ∧ immField w = 0 := by
  have hm : (0xF0FFFFFF : Word) = mkWord (BitVec.allOnes 4) 0 (BitVec.allOnes 24) := rfl
  rw [hm, and_mkWord_eq_iff]
  simp only [BitVec.and_allOnes, BitVec.ofNat_eq_ofNat, BitVec.and_zero, true_and]

theorem and_maskSC_eq_iff (op : BitVec 4) :
    w &&& 0xF0FFFF00 = mkWord op 0 0 ↔ opField w = op ∧ (immField w).extractLsb' 8 16 = 0 := by
  have hm : (0xF0FFFF00 : Word) = mkWord (BitVec.allOnes 4) 0 0xFFFF00 := rfl
  rw [hm, and_mkWord_eq_iff, imm_mask_high]
  simp only [BitVec.and_allOnes, BitVec.ofNat_eq_ofNat, BitVec.and_zero, true_and]

theorem and_maskI_eq_iff (op : BitVec 4) :
    w &&& 0xFF000000 = mkWord op 0 0 ↔ opField w = op ∧ selField w = 0 := by
  have hm : (0xFF000000 : Word) = mkWord (BitVec.allOnes 4) (BitVec.allOnes 4) 0 := rfl
  rw [hm, and_mkWord_eq_iff]
  simp only [BitVec.and_allOnes, BitVec.ofNat_eq_ofNat, BitVec.and_zero, and_true]

theorem and_maskSI_eq_iff (op : BitVec 4) : w &&& 0xF0000000 = mkWord op 0 0 ↔ opField w = op := by
  have hm : (0xF0000000 : Word) = mkWord (BitVec.allOnes 4) 0 0 := rfl
  rw [hm, and_mkWord_eq_iff]
  simp only [BitVec.and_allOnes, BitVec.ofNat_eq_ofNat, BitVec.and_zero, and_true]

end

/-- Settles O4: for each row, what its command decodes from and what its mask says are the same condition on the fields;
the other opcodes are the first clause of R77. -/
theorem commandTableByMaskAndMatch : Obligations.CommandTableByMaskAndMatch := by
  unfold Obligations.CommandTableByMaskAndMatch
  intro w
  refine ⟨?clr, ?push, ?pushp, ?cfgw, (decode_eq_ok_iff_of_wf rfl).trans (and_maskZ_eq_iff w 0x5).symm, ?hex,
    (decode_eq_ok_iff_of_wf rfl).trans (and_maskZ_eq_iff w 0x7).symm,
    (decode_eq_ok_iff_of_wf rfl).trans (and_maskZ_eq_iff w 0x8).symm,
    (decode_eq_ok_iff_of_wf rfl).trans (and_maskZ_eq_iff w 0x9).symm, fun h => illegalByR77_iff.mp (.inl h)⟩
  case clr =>
    rw [exists_decode_eq_clr_iff, ← and_assoc, ← and_maskS_eq_iff]
    rfl
  case push =>
    rw [exists_decode_eq_push_iff, ← and_assoc, ← and_maskSC_eq_iff]
    rfl
  case pushp =>
    rw [exists_decode_eq_pushp_iff, ← and_maskI_eq_iff]
    rfl
  case cfgw =>
    rw [exists_decode_eq_cfgw_iff, ← and_maskSI_eq_iff]
    rfl
  case hex =>
    rw [exists_decode_eq_hex_iff, ← and_assoc, ← and_maskS_eq_iff]
    rfl

end Sys2Proof.Machine
end

section
/-! PROOFS. The CRC engine (spec/40_crc_engine.md): the slicer (R92), the division pivot by pivot (R93), and the commands
CRC (R95, R98) and HEX (R101). -/

namespace Sys2Proof.Machine

/-! ### The slicer (R92) -/

section
variable {f : SymSeq} {en : BitVec 1}

theorem work_of_long (hen : en = 1) (hf : 32 < f.length) :
    work f en = slice f 0 (f.length - 16) ++ slice f (f.length - 16) (f.length - 1) :=
  if_pos ⟨hen, hf⟩

theorem work_of_short (hf : f.length ≤ 32) : work f en = f :=
  if_neg fun ⟨_, hlong⟩ => Nat.not_lt.mpr hf hlong

theorem work_of_disabled (hen : en = 0) : work f en = f :=
  if_neg fun ⟨henabled, _⟩ => absurd (hen.symm.trans henabled) (by decide)

end

/-- Settles O25: the two slices of a long frame meet before its final 16 bits, so together they are the frame without its
final bit. -/
theorem slicerDropsTheDelimiter : Obligations.SlicerDropsTheDelimiter := by
  unfold Obligations.SlicerDropsTheDelimiter
  intro f en
  refine ⟨fun hen hf => ⟨work_of_long hen hf, ?_, ?_⟩, fun _ hf => work_of_short hf, work_of_disabled⟩
  · rw [work_of_long hen hf, slice_append_slice f _ _ _ (Nat.zero_le _) (by omega)]
  · rw [length_work, if_pos ⟨hen, hf⟩]

/-! ### The division, pivot by pivot (R93) -/

/-- Past the polynomial nothing is XORed. -/
theorem xorFront_getD_of_le (b p : SymSeq) (j : Nat) (h : p.length ≤ j) :
    (xorFront b p).getD j sym0 = b.getD j sym0 := by
  simp only [List.getD_eq_getElem?_getD, xorFront_getElem?, List.getElem?_eq_none h]

/-- Where both sequences have a symbol, the XOR of the two. -/
theorem xorFront_getD_of_lt (b p : SymSeq) (j : Nat) (hb : j < b.length) (hp : j < p.length) :
    (xorFront b p).getD j sym0 = xorSym (b.getD j sym0) (p.getD j sym0) := by
  simp only [List.getD_eq_getElem?_getD, xorFront_getElem?, List.getElem?_eq_getElem hb,
    List.getElem?_eq_getElem hp, Option.getD_some]

section
variable {sp buf : SymSeq} {i : Nat}

theorem xorAt_getD_before {j : Nat} (hj : j < i) (hi : i ≤ buf.length) :
    (xorAt sp buf i).getD j sym0 = buf.getD j sym0 := by
  rw [xorAt, List.getD_append _ _ _ _ (by rw [List.length_take]; omega)]
  simp only [List.getD_eq_getElem?_getD, List.getElem?_take_of_lt hj]

/-- From the pivot on, the buffer's rest with the polynomial XORed into its front. -/
theorem xorAt_getD_add (j : Nat) (hi : i ≤ buf.length) :
    (xorAt sp buf i).getD (i + j) sym0 = (xorFront (buf.drop i) sp).getD j sym0 := by
  have hlen : (buf.take i).length = i := List.length_take_of_le hi
  rw [xorAt, List.getD_append_right _ _ _ _ (by omega), hlen, Nat.add_sub_cancel_left]

/-- The XOR changes the window of the polynomial's length at the pivot, and no symbol outside it. -/
theorem xorAt_getD (j : Nat) (hi : i + sp.length ≤ buf.length) :
    (xorAt sp buf i).getD j sym0 =
      if i ≤ j ∧ j < i + sp.length then xorSym (buf.getD j sym0) (sp.getD (j - i) sym0)
      else buf.getD j sym0 := by
  have hdrop (j : Nat) : (buf.drop i).getD j sym0 = buf.getD (i + j) sym0 := by
    simp only [List.getD_eq_getElem?_getD, List.getElem?_drop]
  rcases Nat.lt_or_ge j i with hbefore | hge
  · rw [if_neg (by omega), xorAt_getD_before hbefore (by omega)]
  · obtain ⟨d, rfl⟩ := Nat.exists_eq_add_of_le hge
    rw [xorAt_getD_add d (by omega), Nat.add_sub_cancel_left]
    rcases Nat.lt_or_ge d sp.length with hin | hafter
    · rw [if_pos (by omega), xorFront_getD_of_lt _ _ _ (by rw [List.length_drop]; omega) hin, hdrop]
    · rw [if_neg (by omega), xorFront_getD_of_le _ _ _ hafter, hdrop]

theorem pivot_of_ne_sym1 (h : buf[i]? ≠ some sym1) : pivot sp buf i = buf := if_neg h

theorem pivot_of_sym1 (h : buf[i]? = some sym1) : pivot sp buf i = xorAt sp buf i := if_pos h

end

/-- Settles O26: each further pivot is one `pivot` of the buffer the earlier ones left, and its window lies within the
buffer. -/
theorem divisionPivotByPivot : Obligations.DivisionPivotByPivot := by
  unfold Obligations.DivisionPivotByPivot
  rintro w sp - ⟨-, hk, -⟩
  refine ⟨divideTo_zero w sp, rfl, fun i hi => ⟨?_, fun hne => ?_, fun heq j => ?_⟩⟩
  · rw [length_divideTo]
    omega
  · rw [divideTo_succ, pivot_of_ne_sym1 hne]
  · rw [divideTo_succ, pivot_of_sym1 heq, xorAt_getD j (by rw [length_divideTo]; omega)]

/-! ### The checks of CRC and ANALYZE, in order (R95, R120) -/

section
variable {frame poly : SymSeq}

theorem crcOperandError_of_not_bits (h : isBits poly = false ∨ isBits frame = false) :
    crcOperandError frame poly = some .invalidBitString := by
  rcases h with h | h <;> simp [crcOperandError, h]

theorem crcOperandError_of_short_poly (hp : isBits poly = true) (hf : isBits frame = true)
    (hk : (strip poly).length < 2) : crcOperandError frame poly = some .invalidPolynomial := by
  simp [crcOperandError, Config.minPoly, hp, hf, hk]

theorem crcOperandError_of_empty_frame (hp : isBits poly = true) (hf : isBits frame = true)
    (hk : 2 ≤ (strip poly).length) (hn : frame.length = 0) :
    crcOperandError frame poly = some .emptyOperand := by
  simp [crcOperandError, Config.minPoly, hp, hf, Nat.not_lt.mpr hk, hn]

/-! ### CRC (R95, R98) -/

theorem computeCrc_of_operandError {e : ErrorKind} (en : BitVec 1) (h : crcOperandError frame poly = some e) :
    computeCrc en frame poly = .error e := by
  simp only [computeCrc, h]

theorem computeCrc_of_valid (en : BitVec 1) (h : ValidCrcOperands frame poly) :
    computeCrc en frame poly =
      .ok (remainder (work frame en) (strip poly), wideRemainder (work frame en) (strip poly)) := by
  have hnone : crcOperandError frame poly = none := (crcOperandError_eq_none frame poly).mpr h
  simp only [computeCrc, hnone, crcOf]

end

/-- Settles O28: the checks in order decide what `compute_crc` answers, and that decides the next state. -/
theorem crcCommand : Obligations.CrcCommand := by
  unfold Obligations.CrcCommand
  refine ⟨by decide, fun s => ⟨fun hbits => ?notBits, fun hp hf => ⟨fun hk => ?shortPoly,
    fun hk => ⟨fun hn => ?emptyFrame, fun hn => ?valid⟩⟩⟩⟩
  case notBits => exact exec_crc_of_error (computeCrc_of_operandError _ (crcOperandError_of_not_bits hbits))
  case shortPoly =>
    exact exec_crc_of_error (computeCrc_of_operandError _ (crcOperandError_of_short_poly hp hf hk))
  case emptyFrame =>
    exact exec_crc_of_error (computeCrc_of_operandError _ (crcOperandError_of_empty_frame hp hf hk hn))
  case valid =>
    have hvalid : ValidCrcOperands s.frame s.poly := ⟨hp, hf, hk, List.ne_nil_of_length_pos (by omega)⟩
    exact exec_crc_of_ok (computeCrc_of_valid _ hvalid)

/-- Settles O30: both states give `compute_crc` the same arguments, and CRC changes none of them, so a second CRC writes
the results that are there. -/
theorem crcDependsOnItsOperandsOnly : Obligations.CrcDependsOnItsOperandsOnly := by
  unfold Obligations.CrcDependsOnItsOperandsOnly
  intro s t hframe hpoly hen
  have hsame : computeCrc t.sliceEn t.frame t.poly = computeCrc s.sliceEn s.frame s.poly := by
    rw [hframe, hpoly, hen]
  cases h : computeCrc s.sliceEn s.frame s.poly with
  | error e =>
    exact ⟨_, _, exec_crc_of_error h, exec_crc_of_error (hsame.trans h), rfl, rfl, rfl, exec_crc_of_error h⟩
  | ok r => exact ⟨_, _, exec_crc_of_ok h, exec_crc_of_ok (hsame.trans h), rfl, rfl, rfl, exec_crc_of_ok h⟩

/-! ### HEX (R101) -/

/-- The word of a command with a selector and no immediate, by the opcode's word and the selector's bits. -/
theorem mkWord_sel_eq_or (op sel : BitVec 4) : mkWord op sel 0 = mkWord op 0 0 ||| (sel.setWidth 32 <<< 24) := by
  have hsel : sel.setWidth 32 <<< 24 = mkWord 0 sel 0 := by
    revert sel
    decide
  rw [hsel, mkWord_or]
  simp

section
variable {b : SymSeq}

theorem binaryToHex_of_not_bits (h : isBits b = false) : binaryToHex b = .error .invalidBitString := by
  simp only [binaryToHex, h, Bool.not_false, if_true]

theorem binaryToHex_of_empty (h : isBits b = true) (hn : b.length = 0) : binaryToHex b = .error .emptyOperand := by
  simp only [binaryToHex, h, Bool.not_true, Bool.false_eq_true, if_false, if_pos hn]

theorem binaryToHex_of_bits (h : isBits b = true) (hn : b.length ≠ 0) : binaryToHex b = .ok (hexstr (value b)) := by
  simp only [binaryToHex, h, Bool.not_true, Bool.false_eq_true, if_false, if_neg hn]

end

/-- Settles O37: an invalid source ends the command; otherwise what `binary_to_hex` answers decides the next state. -/
theorem hexCommand : Obligations.HexCommand := by
  unfold Obligations.HexCommand
  refine ⟨fun x => mkWord_sel_eq_or 0x6 x.sel, fun s => ⟨rfl, rfl, fun _ => rfl, fun x =>
    ⟨exec_hex_of_invalid, fun b hx => ⟨fun h => ?notBits, fun h hn => ?empty, fun h hn => ?bits⟩⟩⟩⟩
  case notBits => exact exec_hex_of_error hx (binaryToHex_of_not_bits h)
  case empty => exact exec_hex_of_error hx (binaryToHex_of_empty h hn)
  case bits => exact exec_hex_of_ok hx (binaryToHex_of_bits h hn)

end Sys2Proof.Machine
end

section
/-! PROOFS. The error analysis (spec/41_error_analysis.md): the comparator (R112), and the commands HAM (R113) and ANALYZE
(R116 to R118, R120). -/

namespace Sys2Proof.Machine

/-! ### The comparator (R112) -/

@[simp] theorem hamming_nil : hamming [] [] = 0 := rfl

/-- Each index adds 1 where the sequences differ: a pair of symbols put on the left adds the term of index 0 and moves every
other term one index on. -/
theorem hamming_eq_sum (a b : SymSeq) (h : a.length = b.length) :
    hamming a b = ∑ i ∈ Finset.range a.length, if a[i]? ≠ b[i]? then 1 else 0 := by
  induction a generalizing b with
  | nil =>
    obtain rfl : b = [] := List.length_eq_zero_iff.mp h.symm
    rfl
  | cons x a ih =>
    obtain ⟨y, b, rfl⟩ := List.exists_cons_of_length_eq_add_one h.symm
    have htail : a.length = b.length := Nat.succ.inj h
    rw [hamming_cons, ih b htail, List.length_cons, Finset.sum_range_succ', Nat.add_comm]
    simp only [List.getElem?_cons_succ, List.getElem?_cons_zero, Option.some_inj, ne_eq, ite_not]

/-- The distance is the number of indexes at which the sequences differ. -/
theorem hamming_eq_card (a b : SymSeq) (h : a.length = b.length) :
    hamming a b = ((Finset.range a.length).filter (fun i => a[i]? ≠ b[i]?)).card := by
  rw [hamming_eq_sum a b h, Finset.card_filter]

theorem hamming_le_length (a b : SymSeq) (h : a.length = b.length) : hamming a b ≤ a.length := by
  rw [hamming_eq_card a b h]
  exact (Finset.card_filter_le _ _).trans_eq (Finset.card_range _)

/-- Settles O38, from the count of the differing indexes, which are among `a.length` many. -/
theorem hammingCountsTheDifferences : Obligations.HammingCountsTheDifferences := by
  unfold Obligations.HammingCountsTheDifferences
  exact ⟨fun a b h => ⟨hamming_eq_card a b h, hamming_le_length a b h⟩, hamming_nil⟩

/-! ### HAM (R113) -/

section
variable {a b : SymSeq}

theorem hammingDistance_of_not_bits (h : isBits a = false ∨ isBits b = false) :
    hammingDistance a b = .error .invalidBitString := by
  rcases h with h | h <;> simp [hammingDistance, h]

theorem hammingDistance_of_length_ne (ha : isBits a = true) (hb : isBits b = true) (hn : a.length ≠ b.length) :
    hammingDistance a b = .error .lengthMismatch := by
  simp [hammingDistance, ha, hb, hn]

theorem hammingDistance_of_length_eq (ha : isBits a = true) (hb : isBits b = true) (hn : a.length = b.length) :
    hammingDistance a b = .ok (hamming a b) := by
  simp [hammingDistance, ha, hb, hn]

end

/-- Settles O40: what `hamming_distance` answers decides the next state. -/
theorem hamCommand : Obligations.HamCommand := by
  unfold Obligations.HamCommand
  refine ⟨by decide, fun s => ⟨fun hbits => ?notBits, fun ha hb hn => ?lengthsDiffer, fun ha hb hn => ?distance⟩⟩
  case notBits => exact exec_ham_of_error (hammingDistance_of_not_bits hbits)
  case lengthsDiffer => exact exec_ham_of_error (hammingDistance_of_length_ne ha hb hn)
  case distance => exact exec_ham_of_ok (hammingDistance_of_length_eq ha hb hn)

/-! ### ANALYZE (R116 to R118, R120) -/

section
variable {en : BitVec 1} {w : Nat} {f p : SymSeq} {ps : List Position}

theorem analyzeErrors_of_operandError {e : ErrorKind} (h : crcOperandError f p = some e) :
    analyzeErrors en w f p ps = .error e := by
  simp only [analyzeErrors, h]

theorem exec_analyze_of_operandError {s : State} {e : ErrorKind} (h : crcOperandError s.frame s.poly = some e) :
    exec .analyze s = .next (raise (some .analyze) e s) :=
  exec_analyze_of_error (analyzeErrors_of_operandError h)

/-- The positions of the rows are those within the frame, in the order of the list (R118). -/
theorem map_pos_analysisRows :
    (analysisRows en w f p ps).map ReportRow.pos = ps.filter (fun q => decide (q.toNat < f.length)) := by
  have hpos : ReportRow.pos ∘ analysisRow en w f p = id := rfl
  rw [analysisRows_eq, List.map_map, hpos, List.map_id]

/-- Every row is the row of its own position (R117). -/
theorem eq_analysisRow_of_mem {r : ReportRow} (h : r ∈ analysisRows en w f p ps) :
    r = analysisRow en w f p r.pos := by
  rw [analysisRows_eq] at h
  obtain ⟨q, -, rfl⟩ := List.mem_map.mp h
  rfl

/-- What a row holds: the frame with its position flipped, the padded CRC of that, and the distance of this CRC from the
baseline's (R117). -/
theorem row_content_of_mem_analysisRows {r : ReportRow} (h : r ∈ analysisRows en w f p ps) :
    r.cframe = flipAt f r.pos.toNat ∧ r.ccrc = paddedCrc en w p r.cframe ∧
      r.dist = hamming (paddedCrc en w p f) r.ccrc := by
  rw [eq_analysisRow_of_mem h]
  exact ⟨rfl, rfl, rfl⟩

end

/-- Settles O41: the checks are those of CRC; on operands that pass them the rows have the positions within the frame, and
each row's content follows from its position. -/
theorem analyzeCommand : Obligations.AnalyzeCommand := by
  unfold Obligations.AnalyzeCommand
  refine ⟨by decide, fun s => ⟨fun hbits => ?notBits, fun hp hf hk => ?shortPoly, fun hp hf hk hn => ?emptyFrame,
    fun hvalid => ?valid⟩⟩
  case notBits => exact exec_analyze_of_operandError (crcOperandError_of_not_bits hbits)
  case shortPoly => exact exec_analyze_of_operandError (crcOperandError_of_short_poly hp hf hk)
  case emptyFrame => exact exec_analyze_of_operandError (crcOperandError_of_empty_frame hp hf hk hn)
  case valid =>
    exact ⟨_, exec_analyze_of_valid s hvalid, map_pos_analysisRows, fun _ => row_content_of_mem_analysisRows⟩

end Sys2Proof.Machine
end

section
/-! PROOFS. Operand loading and control (spec/42_operand_and_control.md): CLR (R130), PUSH (R131), PUSHP (R132) and CFGW
(R133). -/

namespace Sys2Proof.Machine

/-! ### CLR (R130) -/

/-- Settles O16: the word is that of a command with a selector alone, and each outcome is that of `exec_clr`. -/
theorem clrEmptiesItsRegister : Obligations.ClrEmptiesItsRegister := by
  unfold Obligations.ClrEmptiesItsRegister
  exact ⟨fun x => mkWord_sel_eq_or 0x1 x.sel, fun s => ⟨exec_clr (.seq .frame) s, exec_clr (.seq .poly) s,
    exec_clr (.seq .opa) s, exec_clr (.seq .opb) s, exec_clr .epos s⟩⟩

/-! ### PUSH (R131) -/

section
variable {cap : Capacity} {x : SeqReg} {s : State}

/-- A successful append writes the register and STATUS.ERR, whichever register it is. -/
theorem succeed_seqAppend (x : SeqReg) (c : Symbol) (s : State) :
    succeed (seqAppend x c s) = setSeq x (getSeq x s ++ [c]) { s with err := 0 } := by
  cases x <;> rfl

theorem pushSymbol_of_full (c : Symbol) (h : cap = .bounded (getSeq x s).length) :
    pushSymbol cap x c s = { s with err := 5 } := by
  rw [pushSymbol, if_pos ((isFull_iff _ _).mpr h)]
  exact raise_effect none .overflow s

theorem pushSymbol_of_not_full (c : Symbol) (h : cap ≠ .bounded (getSeq x s).length) :
    pushSymbol cap x c s = setSeq x (getSeq x s ++ [c]) { s with err := 0 } := by
  rw [pushSymbol, if_neg (mt (isFull_iff _ _).mp h), succeed_seqAppend]

theorem pushSymbol_unbounded (x : SeqReg) (c : Symbol) (s : State) :
    pushSymbol .unbounded x c s = setSeq x (getSeq x s ++ [c]) { s with err := 0 } :=
  pushSymbol_of_not_full c nofun

end

/-- The word of PUSH, by the opcode's word, the selector's bits and the symbol's. -/
theorem encode_push_eq_or (x : SeqReg) (c : Symbol) :
    encode (.push x c) = 0x20000000 ||| (x.sel.setWidth 32 <<< 24) ||| c.setWidth 32 := by
  rw [encode_push, mkWord_sel_eq_or]
  rfl

/-- Settles O17: a register is full exactly when the capacity is the bound it holds, and PUSH appends in every other
case, so a bound that is not met and no bound at all give one result. -/
theorem pushAppendsOneSymbol : Obligations.PushAppendsOneSymbol := by
  unfold Obligations.PushAppendsOneSymbol
  refine ⟨encode_push_eq_or, fun x c s => ⟨rfl, fun h => ?notFull⟩, fun c s => ?unbounded,
    fun n x c s => ⟨fun h => ?full, fun h => ?boundNotMet⟩⟩
  case notFull =>
    exact ⟨_, congrArg Host.Outcome.next (pushSymbol_of_not_full c h), getSeq_setSeq_self _ _ _, rfl⟩
  case unbounded =>
    exact ⟨pushSymbol_unbounded .frame c s, pushSymbol_unbounded .poly c s, pushSymbol_unbounded .opa c s,
      pushSymbol_unbounded .opb c s⟩
  case full => exact pushSymbol_of_full c (congrArg Capacity.bounded h.symm)
  case boundNotMet =>
    have hcap : Capacity.bounded n ≠ .bounded (getSeq x s).length := fun he => h (Capacity.bounded.inj he).symm
    rw [pushSymbol_of_not_full c hcap, pushSymbol_unbounded]

/-! ### PUSHP (R132) -/

section
variable {cap : Capacity} {s : State}

theorem pushPosition_of_full (p : Position) (h : cap = .bounded s.epos.length) :
    pushPosition cap p s = { s with err := 5 } := by
  rw [pushPosition, if_pos ((isFull_iff _ _).mpr h)]
  exact raise_effect none .overflow s

theorem pushPosition_of_not_full (p : Position) (h : cap ≠ .bounded s.epos.length) :
    pushPosition cap p s = { s with epos := s.epos ++ [p], err := 0 } := by
  rw [pushPosition, if_neg (mt (isFull_iff _ _).mp h)]
  rfl

end

/-- Settles O18: the list is full exactly when the capacity is the bound it holds, and PUSHP appends in every other
case. -/
theorem pushpAppendsOnePosition : Obligations.PushpAppendsOnePosition := by
  unfold Obligations.PushpAppendsOnePosition
  refine ⟨encode_pushp, fun p s => ⟨rfl, fun h => ?notFull⟩, fun n p s => ⟨fun h => ?full, fun h => ?boundNotMet⟩⟩
  case notFull => exact congrArg Host.Outcome.next (pushPosition_of_not_full p h)
  case full => exact pushPosition_of_full p (congrArg Capacity.bounded h.symm)
  case boundNotMet => exact pushPosition_of_not_full p fun he => h (Capacity.bounded.inj he).symm

/-! ### CFGW (R133) -/

/-- The word of CFGW, by the opcode's word, the index's bits and the value's. -/
theorem encode_cfgw_eq_or (f : CfgField) (v : BitVec 24) :
    encode (.cfgw f v) = 0x40000000 ||| (f.index.setWidth 32 <<< 24) ||| v.setWidth 32 := by
  rw [encode_cfgw, mkWord_sel_eq_or]
  rfl

/-- Settles O19: each outcome is that of `exec_cfgw`; of a legal SLICE_EN the stored bit is the whole value. -/
theorem cfgwWritesOneField : Obligations.CfgwWritesOneField := by
  unfold Obligations.CfgwWritesOneField
  exact ⟨encode_cfgw_eq_or, fun s => ⟨exec_cfgw .sliceEn 0 s, exec_cfgw .sliceEn 1 s, fun v => exec_cfgw .dispW v s⟩⟩

end Sys2Proof.Machine
end

section
/-! PROOFS. Errors (spec/60_exceptions.md): the effect of an error (R160), the causes of the codes (R159), success (R170),
and that STATUS.ERR alters no command (R163). -/

namespace Sys2Proof.Machine

/-! ### The effect of an error (R160) -/

section
variable {i : Instr} {s t : State}

/-- A command that ends with a code other than OK has raised an error. -/
theorem exec_raise_of_err_ne_ok (h : exec i s = .next t) (hne : t.err ≠ okCode) : ∃ e, t = raise (owns i) e s := by
  rcases exec_cases h with hraise | hs
  · exact hraise
  · exact absurd hs.err_ok hne

end

/-- Settles O48: a code other than OK comes from `raise`, which invalidates the results the command owns; a word that
decodes to no command is illegal by R77. -/
theorem errorEffect : Obligations.ErrorEffect := by
  unfold Obligations.ErrorEffect
  refine ⟨fun i s t h hne => ?_, fun s w rest hp hd => step_illegalByR77 hp (illegalByR77_iff.mpr hd)⟩
  obtain ⟨e, rfl⟩ := exec_raise_of_err_ne_ok h hne
  rw [raise_err, raise_effect]
  rcases owns i with _ | g
  · rfl
  · cases g <;> rfl

/-! ### The causes of the errors (R159) -/

section
variable {e : ErrorKind}

/-- Each check of CRC and ANALYZE, by the error it raises. -/
theorem crcOperandError_eq_some {frame poly : SymSeq} (h : crcOperandError frame poly = some e) :
    (e = .invalidBitString ∧ (isBits frame = false ∨ isBits poly = false)) ∨
    (e = .invalidPolynomial ∧ (strip poly).length < 2) ∨ (e = .emptyOperand ∧ frame = []) := by
  by_cases hbits : isBits poly = false ∨ isBits frame = false
  · rw [crcOperandError_of_not_bits hbits] at h
    exact .inl ⟨(Option.some.inj h).symm, hbits.symm⟩
  · obtain ⟨hp, hf⟩ : isBits poly = true ∧ isBits frame = true := by simpa using hbits
    by_cases hk : (strip poly).length < 2
    · rw [crcOperandError_of_short_poly hp hf hk] at h
      exact .inr (.inl ⟨(Option.some.inj h).symm, hk⟩)
    · have hk : 2 ≤ (strip poly).length := Nat.not_lt.mp hk
      by_cases hn : frame = []
      · rw [crcOperandError_of_empty_frame hp hf hk (List.length_eq_zero_iff.mpr hn)] at h
        exact .inr (.inr ⟨(Option.some.inj h).symm, hn⟩)
      · rw [(crcOperandError_eq_none frame poly).mpr ⟨hp, hf, hk, hn⟩] at h
        cases h

theorem computeCrc_eq_error {en : BitVec 1} {frame poly : SymSeq} (h : computeCrc en frame poly = .error e) :
    crcOperandError frame poly = some e := by
  unfold computeCrc at h
  split at h
  case h_1 he => rw [he, Except.error.inj h]
  case h_2 => cases h

theorem analyzeErrors_eq_error {en : BitVec 1} {w : Nat} {frame poly : SymSeq} {ps : List Position}
    (h : analyzeErrors en w frame poly ps = .error e) : crcOperandError frame poly = some e := by
  unfold analyzeErrors at h
  split at h
  case h_1 he => rw [he, Except.error.inj h]
  case h_2 => cases h

/-- Each check of HEX on the content of its source, by the error it raises. -/
theorem binaryToHex_eq_error {b : SymSeq} (h : binaryToHex b = .error e) :
    (e = .invalidBitString ∧ isBits b = false) ∨ (e = .emptyOperand ∧ b = []) := by
  cases hb : isBits b with
  | false =>
    rw [binaryToHex_of_not_bits hb] at h
    exact .inl ⟨(Except.error.inj h).symm, rfl⟩
  | true =>
    by_cases hn : b.length = 0
    · rw [binaryToHex_of_empty hb hn] at h
      exact .inr ⟨(Except.error.inj h).symm, List.length_eq_zero_iff.mp hn⟩
    · rw [binaryToHex_of_bits hb hn] at h
      cases h

/-- Only a result register can be an invalid source of HEX. -/
theorem hexSource_eq_none {x : HexReg} {s : State} (h : hexSource x s = none) :
    (x = .crc ∧ s.crc = none) ∨ (x = .crck ∧ s.crck = none) := by
  cases x with
  | seq r => cases h
  | crc => exact .inl ⟨rfl, h⟩
  | crck => exact .inr ⟨rfl, h⟩

/-- Each check of HAM, by the error it raises. -/
theorem hammingDistance_eq_error {a b : SymSeq} (h : hammingDistance a b = .error e) :
    (e = .invalidBitString ∧ (isBits a = false ∨ isBits b = false)) ∨
    (e = .lengthMismatch ∧ a.length ≠ b.length) := by
  by_cases hbits : isBits a = false ∨ isBits b = false
  · rw [hammingDistance_of_not_bits hbits] at h
    exact .inl ⟨(Except.error.inj h).symm, hbits⟩
  · obtain ⟨ha, hb⟩ : isBits a = true ∧ isBits b = true := by simpa using hbits
    by_cases hn : a.length = b.length
    · rw [hammingDistance_of_length_eq ha hb hn] at h
      cases h
    · rw [hammingDistance_of_length_ne ha hb hn] at h
      exact .inr ⟨(Except.error.inj h).symm, hn⟩

end

/-- What the table of R159 says of an error: the command that raises it in the state, and why. -/
def ErrorCause (i : Instr) (s : State) : ErrorKind → Prop
  | .invalidPolynomial => (i = .crc ∨ i = .analyze) ∧ (strip s.poly).length < 2
  | .invalidBitString =>
    ((i = .crc ∨ i = .analyze) ∧ (isBits s.frame = false ∨ isBits s.poly = false)) ∨
    (∃ x b, i = .hex x ∧ hexSource x s = some b ∧ isBits b = false) ∨
    (i = .ham ∧ (isBits s.opa = false ∨ isBits s.opb = false))
  | .lengthMismatch => i = .ham ∧ s.opa.length ≠ s.opb.length
  | .emptyOperand =>
    ((i = .crc ∨ i = .analyze) ∧ s.frame = []) ∨ (∃ x, i = .hex x ∧ hexSource x s = some [])
  | .overflow =>
    (∃ x c, i = .push x c ∧ Config.maxLen = .bounded (getSeq x s).length) ∨
    (∃ p, i = .pushp p ∧ Config.maxPos = .bounded s.epos.length)
  | .illegalCommand => False
  | .invalidSource => (i = .hex .crc ∧ s.crc = none) ∨ (i = .hex .crck ∧ s.crck = none)

section
variable {i : Instr} {s t : State} {e : ErrorKind}

theorem errorCause_of_crcOperandError (hi : i = .crc ∨ i = .analyze) (h : crcOperandError s.frame s.poly = some e) :
    ErrorCause i s e := by
  rcases crcOperandError_eq_some h with ⟨rfl, hbits⟩ | ⟨rfl, hk⟩ | ⟨rfl, hn⟩
  · exact .inl ⟨hi, hbits⟩
  · exact ⟨hi, hk⟩
  · exact .inl ⟨hi, hn⟩

theorem errorCause_of_hexSource_eq_none {x : HexReg} (h : hexSource x s = none) :
    ErrorCause (.hex x) s .invalidSource := by
  rcases hexSource_eq_none h with ⟨rfl, hr⟩ | ⟨rfl, hr⟩
  · exact .inl ⟨rfl, hr⟩
  · exact .inr ⟨rfl, hr⟩

theorem errorCause_of_binaryToHex {x : HexReg} {b : SymSeq} (hx : hexSource x s = some b)
    (h : binaryToHex b = .error e) : ErrorCause (.hex x) s e := by
  rcases binaryToHex_eq_error h with ⟨rfl, hbits⟩ | ⟨rfl, rfl⟩
  · exact .inr (.inl ⟨x, b, rfl, hx, hbits⟩)
  · exact .inr ⟨x, rfl, hx⟩

theorem errorCause_of_hammingDistance (h : hammingDistance s.opa s.opb = .error e) : ErrorCause .ham s e := by
  rcases hammingDistance_eq_error h with ⟨rfl, hbits⟩ | ⟨rfl, hn⟩
  · exact .inr (.inr ⟨rfl, hbits⟩)
  · exact ⟨rfl, hn⟩

/-- Every command ends, with the code of OK or with that of an error it has a cause for. -/
theorem exec_ok_or_errorCause (i : Instr) (s : State) :
    ∃ t, exec i s = .next t ∧ (t.err = okCode ∨ ∃ e, t.err = errCode e ∧ ErrorCause i s e) := by
  cases i with
  | clr x => exact ⟨_, exec_clr x s, .inl rfl⟩
  | push x c =>
    cases h : isFull Config.maxLen (getSeq x s).length with
    | true =>
      exact ⟨_, exec_push_of_full x c h, .inr ⟨_, raise_err _ _ _, .inl ⟨x, c, rfl, (isFull_iff _ _).mp h⟩⟩⟩
    | false => exact ⟨_, exec_push_of_not_full x c h, .inl rfl⟩
  | pushp p =>
    cases h : isFull Config.maxPos s.epos.length with
    | true =>
      exact ⟨_, exec_pushp_of_full p h, .inr ⟨_, raise_err _ _ _, .inr ⟨p, rfl, (isFull_iff _ _).mp h⟩⟩⟩
    | false => exact ⟨_, exec_pushp_of_not_full p h, .inl rfl⟩
  | cfgw f v => exact ⟨_, exec_cfgw f v s, .inl rfl⟩
  | crc =>
    cases h : computeCrc s.sliceEn s.frame s.poly with
    | error e =>
      exact ⟨_, exec_crc_of_error h,
        .inr ⟨e, raise_err _ _ _, errorCause_of_crcOperandError (.inl rfl) (computeCrc_eq_error h)⟩⟩
    | ok r => exact ⟨_, exec_crc_of_ok h, .inl rfl⟩
  | hex x =>
    cases hx : hexSource x s with
    | none =>
      exact ⟨_, exec_hex_of_invalid hx, .inr ⟨_, raise_err _ _ _, errorCause_of_hexSource_eq_none hx⟩⟩
    | some b =>
      cases h : binaryToHex b with
      | error e => exact ⟨_, exec_hex_of_error hx h, .inr ⟨e, raise_err _ _ _, errorCause_of_binaryToHex hx h⟩⟩
      | ok r => exact ⟨_, exec_hex_of_ok hx h, .inl rfl⟩
  | ham =>
    cases h : hammingDistance s.opa s.opb with
    | error e => exact ⟨_, exec_ham_of_error h, .inr ⟨e, raise_err _ _ _, errorCause_of_hammingDistance h⟩⟩
    | ok d => exact ⟨_, exec_ham_of_ok h, .inl rfl⟩
  | analyze =>
    cases h : analyzeErrors s.sliceEn s.dispW.toNat s.frame s.poly s.epos with
    | error e =>
      exact ⟨_, exec_analyze_of_error h,
        .inr ⟨e, raise_err _ _ _, errorCause_of_crcOperandError (.inr rfl) (analyzeErrors_eq_error h)⟩⟩
    | ok r => exact ⟨_, exec_analyze_of_ok h, .inl rfl⟩
  | reset => exact ⟨_, exec_reset s, .inl rfl⟩

/-- The code of an error after a command says the cause of that error: no two errors share a code. -/
theorem errorCause_of_err_eq (h : exec i s = .next t) (e : ErrorKind) (he : t.err = errCode e) :
    ErrorCause i s e := by
  obtain ⟨t', ht', hend⟩ := exec_ok_or_errorCause i s
  obtain rfl : t' = t := Host.Outcome.next.inj (ht'.symm.trans h)
  rcases hend with hok | ⟨e', he', hcause⟩
  · exact absurd (he.symm.trans hok) (errCode_ne_ok e)
  · obtain rfl : e' = e := errCode_injective _ _ (he'.symm.trans he)
    exact hcause

/-- A command leaves one of the codes 0 to 7 in STATUS.ERR (R159). -/
theorem exec_err_lt (h : exec i s = .next t) : t.err.toNat < 8 := by
  rcases exec_cases h with ⟨e, rfl⟩ | hs
  · rw [raise_err]
    exact Nat.lt_succ_of_le (errCode_le e)
  · rw [hs.err_ok]
    decide

end

/-- Settles O50: an illegal word raises IllegalCommand, and each code after a command is that of an error with its
cause. -/
theorem errorCodesAndCauses : Obligations.ErrorCodesAndCauses := by
  unfold Obligations.ErrorCodesAndCauses
  refine ⟨fun s w rest e hp hd => ⟨_, step_illegal s w rest e hp hd, rfl⟩, fun i s t h => ?_⟩
  have hcause := errorCause_of_err_eq h
  exact ⟨hcause .invalidPolynomial, hcause .invalidBitString, hcause .lengthMismatch, hcause .emptyOperand,
    hcause .overflow, hcause .illegalCommand, hcause .invalidSource, exec_err_lt h⟩

/-! ### No command reads its own results or STATUS.ERR (R163, R164, R170) -/

section
variable (s : State) (c : BitVec 4)

theorem succeed_setErr : succeed (setErr c s) = succeed s := rfl

theorem setSeq_setErr (x : SeqReg) (v : SymSeq) : setSeq x v (setErr c s) = setErr c (setSeq x v s) := by
  cases x <;> rfl

theorem seqClear_setErr (x : ClrReg) : seqClear x (setErr c s) = setErr c (seqClear x s) := by
  cases x with
  | seq r => exact setSeq_setErr s c r []
  | epos => rfl

theorem seqAppend_setErr (x : SeqReg) (a : Symbol) : seqAppend x a (setErr c s) = setErr c (seqAppend x a s) := by
  rw [seqAppend, getSeq_setErr, setSeq_setErr, seqAppend]

theorem writeCfg_setErr (f : CfgField) (v : BitVec 24) : writeCfg f v (setErr c s) = setErr c (writeCfg f v s) := by
  cases f <;> rfl

theorem raise_setErr (o : Option ResultGroup) (e : ErrorKind) : raise o e (setErr c s) = raise o e s := by
  rcases o with _ | g
  · rfl
  · cases g <;> rfl

/-- The result HEX owns is no source of HEX. -/
theorem hexSource_raise_hex (x : HexReg) (e : ErrorKind) : hexSource x (raise (some .hex) e s) = hexSource x s := by
  cases x with
  | seq r => exact congrArg some (getSeq_raise r _ e s)
  | crc => rfl
  | crck => rfl

end

/-- After an error of its own a command does what it would have done before: it reads neither STATUS.ERR nor the results
it owns, and it writes all of them. -/
theorem exec_raise_owns (i : Instr) (s : State) (e : ErrorKind) : exec i (raise (owns i) e s) = exec i s := by
  cases i with
  | clr x => rw [exec_clr, exec_clr, owns, raise, seqClear_setErr, succeed_setErr]
  | push x c =>
    have hfull : isFull Config.maxLen (getSeq x (raise none e s)).length = isFull Config.maxLen (getSeq x s).length := by
      rw [getSeq_raise]
    cases h : isFull Config.maxLen (getSeq x s).length with
    | true => rw [exec_push_of_full x c h]; exact exec_push_of_full x c (hfull.trans h)
    | false =>
      rw [exec_push_of_not_full x c h, owns, exec_push_of_not_full x c (hfull.trans h), raise, seqAppend_setErr,
        succeed_setErr]
  | pushp p =>
    cases h : isFull Config.maxPos s.epos.length with
    | true => rw [exec_pushp_of_full p h]; exact exec_pushp_of_full p h
    | false => rw [exec_pushp_of_not_full p h]; exact exec_pushp_of_not_full p h
  | cfgw f v => rw [exec_cfgw, exec_cfgw, owns, raise, writeCfg_setErr, succeed_setErr]
  | crc =>
    cases h : computeCrc s.sliceEn s.frame s.poly with
    | error e => rw [exec_crc_of_error h]; exact exec_crc_of_error h
    | ok r => rw [exec_crc_of_ok h]; exact exec_crc_of_ok h
  | hex x =>
    have hsame := hexSource_raise_hex s x e
    cases hx : hexSource x s with
    | none => rw [exec_hex_of_invalid hx]; exact exec_hex_of_invalid (hsame.trans hx)
    | some b =>
      cases h : binaryToHex b with
      | error e => rw [exec_hex_of_error hx h]; exact exec_hex_of_error (hsame.trans hx) h
      | ok r => rw [exec_hex_of_ok hx h]; exact exec_hex_of_ok (hsame.trans hx) h
  | ham =>
    cases h : hammingDistance s.opa s.opb with
    | error e => rw [exec_ham_of_error h]; exact exec_ham_of_error h
    | ok d => rw [exec_ham_of_ok h]; exact exec_ham_of_ok h
  | analyze =>
    cases h : analyzeErrors s.sliceEn s.dispW.toNat s.frame s.poly s.epos with
    | error e => rw [exec_analyze_of_error h]; exact exec_analyze_of_error h
    | ok r => rw [exec_analyze_of_ok h]; exact exec_analyze_of_ok h
  | reset => rw [exec_reset, exec_reset, raise_pending]

/-- States that differ in nothing but STATUS.ERR and the results the command owns lead it to one outcome: an error of the
command makes them one state, whichever error it is. -/
theorem exec_eq_of_raise_eq {i : Instr} {s t : State}
    (h : raise (owns i) .overflow s = raise (owns i) .overflow t) : exec i s = exec i t := by
  rw [← exec_raise_owns i s .overflow, h, exec_raise_owns]

/-! ### Success (R170) -/

section
variable {i : Instr} {s t : State} {g : ResultGroup}

/-- An error leaves the results it owns invalid. -/
theorem groupValid_raise (g : ResultGroup) (e : ErrorKind) (s : State) : groupValid g (raise (some g) e s) = false := by
  cases g <;> rfl

/-- A successful command leaves the results it owns valid. -/
theorem Succeeded.groupValid (h : Succeeded i s t) (hg : owns i = some g) : groupValid g t = true := by
  cases i with
  | crc =>
    obtain ⟨c, ck, rfl⟩ := h
    obtain rfl := Option.some.inj hg
    rfl
  | hex x =>
    obtain ⟨r, rfl⟩ := h
    obtain rfl := Option.some.inj hg
    rfl
  | ham =>
    obtain ⟨d, rfl⟩ := h
    obtain rfl := Option.some.inj hg
    rfl
  | analyze =>
    obtain ⟨b, rows, rfl⟩ := h
    obtain rfl := Option.some.inj hg
    rfl
  | clr | push | pushp | cfgw | reset => cases hg

theorem exec_err_eq_ok_iff_groupValid (h : exec i s = .next t) (hg : owns i = some g) :
    t.err = okCode ↔ groupValid g t = true := by
  rcases exec_cases h with ⟨e, rfl⟩ | hs
  · rw [hg, raise_err, groupValid_raise]
    exact iff_of_false (errCode_ne_ok e) Bool.false_ne_true
  · exact iff_of_true hs.err_ok (hs.groupValid hg)

end

/-- Settles O49: a command ends by `raise` or with the code of OK, and its own results are valid in the second case only;
states that differ in those results alone are one state after an error of the command. -/
theorem successLeavesValidResults : Obligations.SuccessLeavesValidResults := by
  unfold Obligations.SuccessLeavesValidResults
  refine ⟨fun i s => ?endsEitherWay, fun i s g hg => ?validOnSuccess, fun s c ck => exec_eq_of_raise_eq rfl,
    fun x s r => exec_eq_of_raise_eq rfl, fun s d => exec_eq_of_raise_eq rfl,
    fun s b rows => exec_eq_of_raise_eq rfl⟩
  case endsEitherWay =>
    obtain ⟨t, ht, -⟩ := exec_ok_or_errorCause i s
    exact ⟨t, ht, (exec_cases ht).symm.imp_left Succeeded.err_ok⟩
  case validOnSuccess =>
    obtain ⟨t, ht, -⟩ := exec_ok_or_errorCause i s
    exact ⟨t, ht, exec_err_eq_ok_iff_groupValid ht hg⟩

/-! ### STATUS.ERR alters no command (R163) -/

theorem exec_setErr (i : Instr) (s : State) (c : BitVec 4) : exec i (setErr c s) = exec i s :=
  exec_eq_of_raise_eq (raise_setErr s c (owns i) .overflow)

/-- The step of a word that decodes to a command is the command (R26, R58). -/
theorem step_command {s : State} {w : Word} {rest : List HostInput} {i : Instr} (hp : s.pending = .command w :: rest)
    (hd : decode w = .ok i) : step s = exec i { s with pending := rest } := by
  simp only [step, hp, hd]

/-- A step that takes an input ends the same whatever STATUS.ERR was: an illegal word and hardware reset write it
without reading it, as the commands do. -/
theorem step_setErr (s : State) (c : BitVec 4) (hne : s.pending ≠ []) : step (setErr c s) = step s := by
  rcases hp : s.pending with _ | ⟨w | _, rest⟩
  · exact absurd hp hne
  · cases hd : decode w with
    | ok i =>
      rw [step_command hp hd, step_command (s := setErr c s) hp hd]
      exact exec_setErr i { s with pending := rest } c
    | error e =>
      rw [step_illegal s w rest e hp hd]
      exact step_illegal (setErr c s) w rest e hp hd
  · rw [step_hardReset s rest hp]
    exact step_hardReset (setErr c s) rest hp

/-- Settles O51, for the commands and for the steps that take an input. -/
theorem errorsDoNotAlterLaterCommands : Obligations.ErrorsDoNotAlterLaterCommands := by
  unfold Obligations.ErrorsDoNotAlterLaterCommands
  exact ⟨exec_setErr, step_setErr⟩

end Sys2Proof.Machine
end

section
/-! PROOFS. Hazards (spec/70_reset_and_hazards.md): stale results stay (R185). The result registers are taken one group at a
time, a group being what one command owns. -/

namespace Sys2Proof.Machine

/-- The result registers of the group are the same in two states. -/
def SameGroup (g : ResultGroup) (s t : State) : Prop :=
  match g with
  | .crc => t.crc = s.crc ∧ t.crck = s.crck
  | .hex => t.hexr = s.hexr
  | .ham => t.dist = s.dist
  | .analyze => t.base = s.base ∧ t.report = s.report

/-- The groups are all the result registers (R20). -/
theorem sameResults_iff {s t : State} : SameResults s t ↔ ∀ g, SameGroup g s t := by
  constructor
  · rintro ⟨hcrc, hcrck, hhexr, hdist, hbase, hreport⟩ g
    cases g with
    | crc => exact ⟨hcrc, hcrck⟩
    | hex => exact hhexr
    | ham => exact hdist
    | analyze => exact ⟨hbase, hreport⟩
  · intro h
    obtain ⟨hcrc, hcrck⟩ := h .crc
    obtain ⟨hbase, hreport⟩ := h .analyze
    exact ⟨hcrc, hcrck, h .hex, h .ham, hbase, hreport⟩

/-! ### What a write of the operands or of CFG leaves -/

section
variable (s : State)

theorem setSeq_sameResults (x : SeqReg) (v : SymSeq) : SameResults s (setSeq x v s) :=
  ⟨setSeq_crc x v s, setSeq_crck x v s, setSeq_hexr x v s, setSeq_dist x v s, setSeq_base x v s, setSeq_report x v s⟩

theorem setEpos_sameResults (ps : List Position) : SameResults s (setEpos ps s) := ⟨rfl, rfl, rfl, rfl, rfl, rfl⟩

theorem seqAppend_sameResults (x : SeqReg) (c : Symbol) : SameResults s (seqAppend x c s) :=
  setSeq_sameResults s x (getSeq x s ++ [c])

theorem seqClear_sameResults (x : ClrReg) : SameResults s (seqClear x s) := by
  cases x with
  | seq r => exact setSeq_sameResults s r []
  | epos => exact setEpos_sameResults s []

theorem writeCfg_sameResults (f : CfgField) (v : BitVec 24) : SameResults s (writeCfg f v s) := by
  cases f <;> exact ⟨rfl, rfl, rfl, rfl, rfl, rfl⟩

end

/-! ### What a command leaves -/

section
variable {i : Instr} {s t : State} {g : ResultGroup}

/-- An error makes no group invalid but the one it owns (R160). -/
theorem raise_sameGroup {o : Option ResultGroup} (e : ErrorKind) (ho : o ≠ some g) : SameGroup g s (raise o e s) := by
  cases o with
  | none => cases g <;> simp [SameGroup, raise]
  | some g' =>
    have hne : g' ≠ g := fun h => ho (congrArg some h)
    cases g <;> simp [SameGroup, raise, hne]

/-- A successful command other than RESET writes no group but the one it owns. -/
theorem Succeeded.sameGroup (h : Succeeded i s t) (hi : i ≠ .reset) (hg : owns i ≠ some g) : SameGroup g s t := by
  cases i with
  | clr x =>
    obtain rfl := h
    exact sameResults_iff.mp (seqClear_sameResults s x) g
  | push x c =>
    obtain rfl := h
    exact sameResults_iff.mp (seqAppend_sameResults s x c) g
  | pushp p =>
    obtain rfl := h
    exact sameResults_iff.mp (setEpos_sameResults s (s.epos ++ [p])) g
  | cfgw f v =>
    obtain rfl := h
    exact sameResults_iff.mp (writeCfg_sameResults s f v) g
  | crc =>
    obtain ⟨c, ck, rfl⟩ := h
    cases g <;> simp_all [SameGroup, owns]
  | hex x =>
    obtain ⟨r, rfl⟩ := h
    cases g <;> simp_all [SameGroup, owns]
  | ham =>
    obtain ⟨d, rfl⟩ := h
    cases g <;> simp_all [SameGroup, owns]
  | analyze =>
    obtain ⟨b, rows, rfl⟩ := h
    cases g <;> simp_all [SameGroup, owns]
  | reset => exact absurd rfl hi

/-- A command other than RESET, whether it succeeds or raises an error, keeps every group it does not own. -/
theorem exec_sameGroup (h : exec i s = .next t) (hi : i ≠ .reset) (hg : owns i ≠ some g) : SameGroup g s t := by
  rcases exec_cases h with ⟨e, rfl⟩ | hs
  · exact raise_sameGroup e hg
  · exact hs.sameGroup hi hg

/-- A command other than RESET that owns no results keeps all of them. -/
theorem exec_sameResults (h : exec i s = .next t) (hi : i ≠ .reset) (hown : owns i = none) : SameResults s t :=
  sameResults_iff.mpr fun g => exec_sameGroup h hi (by simp [hown])

end

/-- Settles O53: by `exec_sameGroup` for each group; the commands that change an operand or CFG own no group. -/
theorem staleResultsStay : Obligations.StaleResultsStay := by
  unfold Obligations.StaleResultsStay
  refine ⟨fun i s t h hi => ⟨exec_sameGroup (g := .crc) h hi, exec_sameGroup (g := .hex) h hi,
    exec_sameGroup (g := .ham) h hi, exec_sameGroup (g := .analyze) h hi⟩, fun i s t h hwrite => ?_⟩
  rcases hwrite with ⟨x, rfl⟩ | ⟨x, c, rfl⟩ | ⟨p, rfl⟩ | ⟨f, v, rfl⟩ <;> exact exec_sameResults h nofun rfl

end Sys2Proof.Machine
end

section
/-! PROOFS. The round trip of the encoding (spec/30_encoding.md R70 to R78) and the example words (R80). -/

namespace Sys2Proof.Machine

/-- Settles O2, by `decode_encode`. -/
theorem decodeOfEncode : Obligations.DecodeOfEncode := by
  unfold Obligations.DecodeOfEncode
  exact fun _ => decode_encode

/-- Settles O3: the row that accepts the word gives its fields. -/
theorem encodeOfDecode : Obligations.EncodeOfDecode := by
  unfold Obligations.EncodeOfDecode
  intro w i h
  obtain ⟨hwf, hw⟩ := eq_encode_of_decode h
  exact ⟨hwf, hw.symm⟩

/-- Settles O1: each word and each line is a closed case. -/
theorem exampleWordsDecode : Obligations.ExampleWordsDecode := by
  unfold Obligations.ExampleWordsDecode
  and_intros <;> decide

end Sys2Proof.Machine
end

section
/-! PROOFS. Steps and runs (spec/10_state.md sections 3 and 6, spec/60_exceptions.md sections 5 and 6,
spec/70_reset_and_hazards.md): every command and every run ends, reset, the V flags, and the host's reads. -/

namespace Sys2Proof.Machine

/-! ### One step (R26, R58, R168, R180) -/

/-- Settles O7, by `step_command`. -/
theorem stepRunsTheDecodedCommand : Obligations.StepRunsTheDecodedCommand := by
  unfold Obligations.StepRunsTheDecodedCommand
  exact fun _ _ _ _ => step_command

/-- Settles O8: a step with hardware reset next leaves the registers as RESET does, a step without an input leaves the
state. -/
theorem hardwareResetAndIdleSteps : Obligations.HardwareResetAndIdleSteps := by
  unfold Obligations.HardwareResetAndIdleSteps
  exact ⟨fun s rest hp => ⟨step_hardReset s rest hp, step_hardReset s rest hp⟩, step_idle⟩

/-! ### Every command and every run ends (R187, R189) -/

/-- Every command ends and leaves the inputs still to come: with the inputs it has, `exec_withPending` gives one state
twice. -/
theorem exec_ends (i : Instr) (s : State) : ∃ t, exec i s = .next t ∧ t.pending = s.pending := by
  obtain ⟨t, ht, ht'⟩ := exec_withPending s s.pending i
  have hsame : t = { t with pending := s.pending } := Host.Outcome.next.inj (ht.symm.trans ht')
  have hpend := congrArg State.pending hsame
  exact ⟨t, ht, hpend⟩

/-- Every step ends and takes the next input, if there is one. -/
theorem step_ends (s : State) : ∃ t, step s = .next t ∧ t.pending = s.pending.tail := by
  rcases hp : s.pending with _ | ⟨w | _, rest⟩
  · exact ⟨s, step_idle s hp, hp⟩
  · cases hd : decode w with
    | ok i =>
      obtain ⟨t, ht, hpend⟩ := exec_ends i { s with pending := rest }
      exact ⟨t, (step_command hp hd).trans ht, hpend⟩
    | error e => exact ⟨_, step_illegal s w rest e hp hd, rfl⟩
  · exact ⟨_, step_hardReset s rest hp, rfl⟩

/-- Settles O9, for the commands and for the steps. -/
theorem everyCommandEnds : Obligations.EveryCommandEnds := by
  unfold Obligations.EveryCommandEnds
  exact ⟨exec_ends, step_ends⟩

/-- Nothing changes in a run of a block without inputs (R168). -/
theorem run_idle (n : Nat) (s : State) (hp : s.pending = []) : Sys2Proof.core.run n s = .next s := by
  induction n with
  | zero => exact run_zero s
  | succ n ih => rw [run_succ n s s (step_idle s hp), ih]

/-- A run takes its inputs one by one, and stays where the last of them leaves it. -/
theorem run_ends (q : List HostInput) (s : State) (hp : s.pending = q) :
    ∃ t : State, t.pending = [] ∧ ∀ n, q.length ≤ n → Sys2Proof.core.run n s = .next t := by
  induction q generalizing s with
  | nil => exact ⟨s, hp, fun n _ => run_idle n s hp⟩
  | cons a q ih =>
    obtain ⟨s', hstep, hpend⟩ := step_ends s
    obtain ⟨t, ht, hrun⟩ := ih s' (by rw [hpend, hp, List.tail_cons])
    refine ⟨t, ht, fun n hn => ?_⟩
    obtain ⟨m, rfl⟩ : ∃ m, n = m + 1 := Nat.exists_eq_add_of_le' (Nat.one_le_of_lt hn)
    rw [run_succ m s s' hstep, hrun m (Nat.le_of_succ_le_succ hn)]

/-- Settles O10, by induction on the inputs still to come. -/
theorem runEndsWithTheLastInput : Obligations.RunEndsWithTheLastInput := by
  unfold Obligations.RunEndsWithTheLastInput
  exact fun s => run_ends s.pending s rfl

/-! ### The V flags of a legal state (R27) -/

theorem CrcPairLegal.isSome_eq {cap : Capacity} :
    ∀ {c ck : Result SymSeq}, CrcPairLegal cap c ck → c.isSome = ck.isSome
  | none, none, _ | some _, some _, _ => rfl
  | none, some _, h | some _, none, h => h.elim

theorem ReportLegal.isSome_eq {capLen capPos : Capacity} :
    ∀ {b : Result Baseline} {rows : Result (List ReportRow)}, ReportLegal capLen capPos b rows → b.isSome = rows.isSome
  | none, none, _ | some _, some _, _ => rfl
  | none, some _, h | some _, none, h => h.elim

/-- Settles O14: the two registers of a pair are valid together, so each V flag is the validity of either. -/
theorem validityFlags : Obligations.ValidityFlags := by
  unfold Obligations.ValidityFlags
  intro s h
  have hcrc := h.crc_pair.isSome_eq
  have hrep := h.report_pair.isSome_eq
  simp [vcrc, vhex, vdist, vrep, hcrc, hrep]

/-! ### The host's reads (R135) -/

/-- The read of SLICE_EN is the bit as a truth value (R30). -/
theorem readReg_sliceEn (s : State) : readReg .sliceEn s = .ok (.bit (s.sliceEn == 1)) := rfl

/-- Settles O55: operands, CFG, STATUS.ERR and the V flags are read as they are, result registers by `readResult`. -/
theorem hostReadsEveryRegister : Obligations.HostReadsEveryRegister := by
  unfold Obligations.HostReadsEveryRegister
  intro s
  refine ⟨rfl, rfl, rfl, rfl, rfl, fun h => ?_, fun h => ?_, rfl, rfl, rfl, rfl, rfl, rfl, ?results⟩
  case results =>
    and_intros
    all_goals
      split
      case h_1 h => exact readResult_of_some _ h
      case h_2 h => exact readResult_of_none _ h
  all_goals
    rw [readReg_sliceEn, h]
    rfl

end Sys2Proof.Machine
end

section
/-! PROOFS. Sequences and literals: what `strip` (R16) leaves, the laws of the comparator (R114), and the digits of a number in base 16 (R102). -/

namespace Sys2Proof.Machine

/-! ### strip (R16) -/

/-- What `strip` drops is a run of zeros. -/
theorem exists_eq_rep_append_strip (p : SymSeq) : ∃ z, p = rep sym0 z ++ strip p := by
  have hzeros : ∀ c ∈ p.takeWhile (· == sym0), c = sym0 := fun c hc =>
    beq_iff_eq.mp (List.mem_takeWhile_imp (p := (· == sym0)) hc)
  refine ⟨(p.takeWhile (· == sym0)).length, ?_⟩
  rw [rep, ← List.eq_replicate_of_mem hzeros]
  exact List.takeWhile_append_dropWhile.symm

/-- What `strip` leaves does not start with `'0'`. -/
theorem head?_strip_ne (p : SymSeq) : (strip p).head? ≠ some sym0 := by
  intro h
  have hhead := List.head?_dropWhile_not (· == sym0) p
  rw [show p.dropWhile (· == sym0) = strip p from rfl, h] at hhead
  exact absurd hhead (by decide)

theorem strip_rep_append (z : Nat) (p : SymSeq) : strip (rep sym0 z ++ p) = strip p :=
  List.dropWhile_append_of_pos fun _ hc => beq_iff_eq.mpr (List.eq_of_mem_replicate hc)

theorem length_strip_le (p : SymSeq) : (strip p).length ≤ p.length := (List.dropWhile_suffix _).length_le

theorem isBits_strip {p : SymSeq} (h : isBits p = true) : isBits (strip p) = true := by
  obtain ⟨z, hz⟩ := exists_eq_rep_append_strip p
  rw [hz, isBits_append] at h
  exact h.2

/-- A bit sequence that does not start with `'0'` is empty or starts with `'1'`. -/
theorem strip_eq_nil_or_head? {p : SymSeq} (h : isBits p = true) : strip p = [] ∨ (strip p).head? = some sym1 := by
  have hbits := isBits_strip h
  have hne := head?_strip_ne p
  cases hs : strip p with
  | nil => exact .inl rfl
  | cons c q =>
    rw [hs] at hbits hne
    rcases (isBits_iff _).mp hbits c List.mem_cons_self with rfl | rfl
    · exact absurd rfl hne
    · exact .inr rfl

/-- Settles O21: the run of zeros that `strip` drops ends at the least index that does not hold `'0'`. -/
theorem stripDropsTheLeadingZeros : Obligations.StripDropsTheLeadingZeros := by
  unfold Obligations.StripDropsTheLeadingZeros
  intro p
  obtain ⟨z, hz⟩ := exists_eq_rep_append_strip p
  have hlen : (rep sym0 z).length = z := length_rep sym0 z
  refine ⟨z, ?_, ?_, fun j hj => ?_, ?_, strip_eq_nil_or_head?⟩
  · rw [hz, List.length_append, hlen]
    exact Nat.le_add_right _ _
  · rw [slice_to_end]
    conv_rhs => rw [hz, List.drop_left' hlen]
  · rw [hz, List.getElem?_append_left (hlen.symm ▸ hj)]
    exact List.getElem?_replicate_of_lt hj
  · rw [hz, List.getElem?_append_right hlen.le, hlen, Nat.sub_self, ← List.head?_eq_getElem?]
    exact head?_strip_ne p

/-! ### The comparator (R114) -/

theorem hamming_self (x : SymSeq) : hamming x x = 0 := by simp [hamming_eq_sum]

/-- An index at which two sequences differ is one at which they differ read the other way. -/
theorem hamming_comm (a b : SymSeq) (h : a.length = b.length) : hamming a b = hamming b a := by
  simp only [hamming_eq_sum a b h, hamming_eq_sum b a h.symm, h, ne_comm]

/-- The distance is 0 when no index differs. -/
theorem hamming_eq_zero_iff (a b : SymSeq) (h : a.length = b.length) : hamming a b = 0 ↔ a = b := by
  constructor
  · intro h0
    rw [hamming_eq_card a b h, Finset.card_eq_zero, Finset.filter_eq_empty_iff] at h0
    refine List.ext_getElem? fun i => ?_
    by_cases hi : i < a.length
    · exact not_not.mp (h0 (Finset.mem_range.mpr hi))
    · rw [List.getElem?_eq_none (not_lt.mp hi), List.getElem?_eq_none (h ▸ not_lt.mp hi)]
  · rintro rfl
    exact hamming_self a

/-- Two bits have the XOR `'1'` exactly when they differ (R13). -/
theorem xorSym_eq_sym1_iff {a b : Symbol} (ha : isBit a = true) (hb : isBit b = true) :
    xorSym a b = sym1 ↔ a ≠ b := by
  rw [isBit_iff] at ha hb
  rcases ha with rfl | rfl <;> rcases hb with rfl | rfl <;> decide

/-- The distance of two bit sequences is the number of ones in their XOR. -/
theorem hamming_eq_count_xorSeq (a b : SymSeq) (h : a.length = b.length) (ha : isBits a = true)
    (hb : isBits b = true) : hamming a b = (xorSeq a b).count sym1 := by
  induction a generalizing b with
  | nil =>
    obtain rfl : b = [] := List.length_eq_zero_iff.mp h.symm
    rfl
  | cons x a ih =>
    obtain ⟨y, b, rfl⟩ := List.exists_cons_of_length_eq_add_one h.symm
    rw [isBits_cons] at ha hb
    have hxor : xorSeq (x :: a) (y :: b) = xorSym x y :: xorSeq a b := rfl
    rw [hamming_cons, ih b (Nat.succ.inj h) ha.2 hb.2, hxor, List.count_cons, Nat.add_comm]
    simp only [beq_iff_eq, xorSym_eq_sym1_iff ha.1 hb.1, ne_eq, ite_not]

/-- Settles O39, one lemma for each law. -/
theorem hammingLaws : Obligations.HammingLaws := by
  unfold Obligations.HammingLaws
  exact ⟨hamming_self, fun a b h => ⟨hamming_comm a b h, hamming_eq_zero_iff a b h, hamming_eq_count_xorSeq a b h⟩⟩

/-! ### The digits of a number (R102) -/

/-- The bit length of the spec is Mathlib's size of a number. -/
theorem bitLength_eq_size (v : Nat) : bitLength v = Nat.size v := by
  unfold bitLength
  split
  case isTrue h => rw [h, Nat.size_zero]
  case isFalse h =>
    apply le_antisymm
    · exact Nat.lt_size.mpr (Nat.log2_self_le h)
    · exact Nat.size_le.mpr Nat.lt_log2_self

theorem hexDigitCount_eq (v : Nat) : hexDigitCount v = max 1 ((Nat.size v + 3) / 4) := by
  rw [hexDigitCount, bitLength_eq_size]

theorem sixteen_pow_eq_two_pow (n : Nat) : 16 ^ n = 2 ^ (4 * n) := by norm_num [pow_mul]

/-- The digits are enough for the number. -/
theorem lt_pow_hexDigitCount (v : Nat) : v < 16 ^ hexDigitCount v := by
  rw [sixteen_pow_eq_two_pow, ← Nat.size_le, hexDigitCount_eq]
  omega

/-- With one digit less they would not be. -/
theorem pow_hexDigitCount_le (v : Nat) (h : v ≠ 0) : 16 ^ (hexDigitCount v - 1) ≤ v := by
  have hpos : 0 < Nat.size v := Nat.size_pos.mpr (Nat.pos_of_ne_zero h)
  rw [sixteen_pow_eq_two_pow, ← Nat.lt_size, hexDigitCount_eq]
  omega

/-- A number of at most `n` bits has at most `ceil(n / 4)` digits, and one digit when it is 0. -/
theorem hexDigitCount_le_of_lt (v n : Nat) (h : v < 2 ^ n) : hexDigitCount v ≤ max 1 ((n + 3) / 4) := by
  have hsize : Nat.size v ≤ n := Nat.size_le.mpr h
  rw [hexDigitCount_eq]
  omega

/-- The sixteen digit characters, in order. -/
theorem hexDigit_eq_getElem? : ∀ d < 16, some (hexDigit d) =
    ([0x30, 0x31, 0x32, 0x33, 0x34, 0x35, 0x36, 0x37, 0x38, 0x39, 0x61, 0x62, 0x63, 0x64, 0x65, 0x66] :
      SymSeq)[d]? := by
  decide

theorem hexDigit_ne_sym0 : ∀ d < 16, d ≠ 0 → hexDigit d ≠ sym0 := by decide

theorem isHexDigit_hexDigit : ∀ d < 16, isHexDigit (hexDigit d) = true := by decide

/-- Every digit written is a digit character. -/
theorem all_isHexDigit_hexDigits (n v : Nat) : (hexDigits n v).all isHexDigit = true := by
  induction n with
  | zero => rfl
  | succ n ih => rw [hexDigits, List.all_cons, isHexDigit_hexDigit _ (Nat.mod_lt _ (by decide)), ih, Bool.and_self]

/-- The leftmost digit of a number other than 0 is not `'0'`: as few digits as possible are written. -/
theorem head?_hexDigits_ne (v : Nat) (h : v ≠ 0) : (hexDigits (hexDigitCount v) v).head? ≠ some sym0 := by
  obtain ⟨n, hn⟩ : ∃ n, hexDigitCount v = n + 1 := Nat.exists_eq_add_of_le' (Nat.le_max_left _ _)
  have hlt := lt_pow_hexDigitCount v
  have hle := pow_hexDigitCount_le v h
  rw [hn, Nat.add_sub_cancel] at hle
  rw [hn, pow_succ'] at hlt
  have htop : v / 16 ^ n < 16 := Nat.div_lt_of_lt_mul (by rwa [Nat.mul_comm])
  have hpos : 0 < v / 16 ^ n := Nat.div_pos hle (by positivity)
  rw [hn, hexDigits, List.head?_cons, Nat.mod_eq_of_lt htop]
  exact fun heq => hexDigit_ne_sym0 _ htop hpos.ne' (Option.some.inj heq)

/-- Settles O36, with the digits of `hexDigits`. -/
theorem hexLiteralOfANumber : Obligations.HexLiteralOfANumber := by
  unfold Obligations.HexLiteralOfANumber
  intro v
  refine ⟨hexDigits (hexDigitCount v) v, rfl, ?_, fun i hi => ?_, ?_, head?_hexDigits_ne v, ?_⟩
  · rw [length_hexDigits, hexDigitCount_eq]
  · rw [length_hexDigits] at hi ⊢
    rw [hexDigits_getElem? _ _ _ hi]
    exact hexDigit_eq_getElem? _ (Nat.mod_lt _ (by decide))
  · rw [length_hexDigits]
    exact lt_pow_hexDigitCount v
  · rintro rfl
    decide

end Sys2Proof.Machine
end

section
/-! PROOFS. The division (spec/40_crc_engine.md): the pivots it clears (R96), and the remainder as that of polynomials over
GF(2) with its laws (R104). -/

namespace Sys2Proof.Machine

open Polynomial

/-! ### The division clears its pivots (R96) -/

/-- A pivot leaves `'0'` at its own index: a `'1'` there is XORed with the polynomial's leading `'1'`. -/
theorem pivot_getElem?_self {sp buf : SymSeq} {i : Nat} (hbits : isBits buf = true)
    (hhead : sp.head? = some sym1) (hi : i < buf.length) : (pivot sp buf i)[i]? = some sym0 := by
  have hsym := (isBits_iff buf).mp hbits _ (List.getElem_mem hi)
  have hget : buf[i]? = some buf[i] := List.getElem?_eq_getElem hi
  rcases hsym with h0 | h1
  · rw [h0] at hget
    rw [pivot_of_ne_sym1 (by rw [hget]; decide), hget]
  · rw [h1] at hget
    have hlen : (buf.take i).length = i := List.length_take_of_le hi.le
    rw [List.head?_eq_getElem?] at hhead
    rw [pivot_of_sym1 hget, xorAt, List.getElem?_append_right hlen.le, hlen, Nat.sub_self, xorFront_getElem?,
      List.getElem?_drop, Nat.add_zero, hget, hhead]
    rfl

/-- The bits up to the last pivot are zeros. -/
theorem divideTo_getElem?_of_lt {w sp : SymSeq} (hw : isBits w = true) (hhead : sp.head? = some sym1) {m : Nat}
    (hm : m ≤ w.length) : ∀ j < m, (divideTo w sp m)[j]? = some sym0 := by
  induction m with
  | zero => exact fun j hj => absurd hj (Nat.not_lt_zero j)
  | succ m ih =>
    intro j hj
    rw [divideTo_succ]
    rcases Nat.lt_succ_iff_lt_or_eq.mp hj with hbefore | rfl
    · rw [pivot_getElem?_before _ _ _ _ hbefore, ih (by omega) j hbefore]
    · exact pivot_getElem?_self (isBits_divideTo w sp j hw) hhead (by rw [length_divideTo]; omega)

section
variable {w sp : SymSeq}

theorem ValidDivisor.head?_eq (hsp : ValidDivisor sp) : sp.head? = some sym1 := by
  obtain ⟨-, -, hhead⟩ := hsp
  exact hhead

theorem length_divide_le (hsp : ValidDivisor sp) : (divide w sp).length ≤ w.length + sp.length - 1 := by
  obtain ⟨-, hk, -⟩ := hsp
  rw [divide, length_divideTo]
  omega

theorem remainder_eq_drop (hsp : ValidDivisor sp) : remainder w sp = (divide w sp).drop w.length := by
  rw [remainder, slice, List.take_of_length_le (length_divide_le hsp)]

/-- After all pivots the buffer is zeros and the remainder. -/
theorem divide_eq_rep_append_remainder (hw : isBits w = true) (hsp : ValidDivisor sp) :
    divide w sp = rep sym0 w.length ++ remainder w sp := by
  have hzeros : (divide w sp).take w.length = rep sym0 w.length := by
    refine List.ext_getElem? fun j => ?_
    by_cases hj : j < w.length
    · rw [List.getElem?_take_of_lt hj, divide, divideTo_getElem?_of_lt hw hsp.head?_eq le_rfl j hj, rep,
        List.getElem?_replicate_of_lt hj]
    · have hj : w.length ≤ j := not_lt.mp hj
      rw [List.getElem?_eq_none ((List.length_take_le _ _).trans hj),
        List.getElem?_eq_none ((length_rep _ _).le.trans hj)]
  rw [remainder_eq_drop hsp, ← hzeros, List.take_append_drop]

/-- The wide view is one of those zeros and the remainder. -/
theorem wideRemainder_eq_cons (hw : isBits w = true) (hne : w ≠ []) (hsp : ValidDivisor sp) :
    wideRemainder w sp = sym0 :: remainder w sp := by
  obtain ⟨n, hn⟩ : ∃ n, w.length = n + 1 := Nat.exists_eq_add_of_le' (List.length_pos_iff.mpr hne)
  have hrep : rep sym0 (n + 1) = rep sym0 n ++ [sym0] := List.replicate_succ'
  have hlen : (rep sym0 n).length = n := length_rep sym0 n
  rw [wideRemainder, slice, List.take_of_length_le (length_divide_le hsp),
    divide_eq_rep_append_remainder hw hsp, hn, hrep, List.append_assoc, Nat.add_sub_cancel, List.drop_left' hlen,
    List.singleton_append]

end

/-- Settles O27: the wide view has one zero more than the remainder, on its left. -/
theorem divisionClearsItsPivots : Obligations.DivisionClearsItsPivots := by
  unfold Obligations.DivisionClearsItsPivots
  intro w sp hw hne hsp
  have hwide := wideRemainder_eq_cons hw hne hsp
  refine ⟨fun m hm => divideTo_getElem?_of_lt hw hsp.head?_eq hm, hwide, ?_, fun w' hw' hne' => ?_⟩
  · rw [hwide, value_cons, show bit sym0 = 0 from rfl, Nat.zero_mul, Nat.zero_add]
  · rw [hwide, wideRemainder_eq_cons hw' hne' hsp, hamming_cons, if_pos rfl, Nat.zero_add]

/-! ### The polynomial of a divisor (R90) -/

/-- A sequence has no coefficient at its length or above. -/
theorem IsPolynomialOf.degree_lt {s : SymSeq} {P : (ZMod 2)[X]} (h : IsPolynomialOf s P) : P.degree < s.length :=
  (degree_lt_iff_coeff_zero P s.length).mpr fun j hj => (h j).trans (if_neg (not_lt.mpr hj))

section
variable {sp : SymSeq} {G : (ZMod 2)[X]}

/-- A valid divisor starts with `'1'`. -/
theorem ValidDivisor.exists_eq_cons (h : ValidDivisor sp) : ∃ r, sp = sym1 :: r ∧ isBits r = true := by
  obtain ⟨hbits, -, hhead⟩ := h
  obtain ⟨r, rfl⟩ := List.head?_eq_some_iff.mp hhead
  exact ⟨r, rfl, ((isBits_cons _ _).mp hbits).2⟩

theorem ValidDivisor.coeff_eq_one (h : ValidDivisor sp) (hG : IsPolynomialOf sp G) : G.coeff (sp.length - 1) = 1 := by
  obtain ⟨r, rfl, -⟩ := h.exists_eq_cons
  have hlt : (sym1 :: r).length - 1 < (sym1 :: r).length := Nat.sub_lt (Nat.succ_pos _) Nat.one_pos
  rw [hG, if_pos hlt, Nat.sub_self]
  rfl

theorem ValidDivisor.natDegree_le (h : ValidDivisor sp) (hG : IsPolynomialOf sp G) : G.natDegree ≤ sp.length - 1 := by
  obtain ⟨-, hk, -⟩ := h
  exact natDegree_le_iff_coeff_eq_zero.mpr fun j hj => (hG j).trans (if_neg (by omega))

theorem ValidDivisor.monic (h : ValidDivisor sp) (hG : IsPolynomialOf sp G) : G.Monic :=
  monic_of_natDegree_le_of_coeff_eq_one _ (h.natDegree_le hG) (h.coeff_eq_one hG)

theorem ValidDivisor.degree_eq (h : ValidDivisor sp) (hG : IsPolynomialOf sp G) :
    G.degree = ((sp.length - 1 : ℕ) : WithBot ℕ) := by
  have hne : G.coeff (sp.length - 1) ≠ 0 := by
    rw [h.coeff_eq_one hG]
    exact one_ne_zero
  rw [degree_eq_natDegree (h.monic hG).ne_zero, natDegree_eq_of_le_of_coeff_ne_zero (h.natDegree_le hG) hne]

end

/-! ### The remainder is the polynomial remainder (R104 b) -/

/-- XORing the divisor into the buffer at an index adds a multiple of its polynomial. -/
theorem IsPolynomialOf.xorAt {sp buf : SymSeq} {i : Nat} {B G : (ZMod 2)[X]} (hbuf : isBits buf = true)
    (hsp : isBits sp = true) (hi : i + sp.length ≤ buf.length) (hB : IsPolynomialOf buf B) (hG : IsPolynomialOf sp G) :
    ∃ Q, IsPolynomialOf (Sys2Proof.Machine.xorAt sp buf i) (B + Q * G) := by
  obtain ⟨S, hS⟩ := exists_isPolynomialOf (buf.take i)
  obtain ⟨T, hT⟩ := exists_isPolynomialOf (buf.drop i)
  have hfits : sp.length ≤ (buf.drop i).length := by
    rw [List.length_drop]
    omega
  have hsum : B = X ^ (buf.drop i).length * S + T := by
    have happ := hS.append hT
    rw [List.take_append_drop] at happ
    exact hB.unique happ
  have hxor := hS.append (hT.xorFront (isBits_drop _ _ hbuf) hsp hfits hG)
  rw [length_xorFront, ← add_assoc, ← hsum] at hxor
  exact ⟨_, hxor⟩

theorem IsPolynomialOf.pivot {sp buf : SymSeq} {i : Nat} {B G : (ZMod 2)[X]} (hbuf : isBits buf = true)
    (hsp : isBits sp = true) (hi : i + sp.length ≤ buf.length) (hB : IsPolynomialOf buf B) (hG : IsPolynomialOf sp G) :
    ∃ Q, IsPolynomialOf (Sys2Proof.Machine.pivot sp buf i) (B + Q * G) := by
  by_cases h : buf[i]? = some sym1
  · rw [pivot_of_sym1 h]
    exact hB.xorAt hbuf hsp hi hG
  · rw [pivot_of_ne_sym1 h]
    refine ⟨0, ?_⟩
    rwa [zero_mul, add_zero]

section
variable {w sp : SymSeq} {W G : (ZMod 2)[X]} (hw : isBits w = true) (hsp : ValidDivisor sp)
  (hW : IsPolynomialOf w W) (hG : IsPolynomialOf sp G)
include hw hsp hW hG

/-- Every buffer of the division stands for the shifted input and a multiple of the divisor. -/
theorem exists_isPolynomialOf_divideTo {m : Nat} (hm : m ≤ w.length) :
    ∃ Q, IsPolynomialOf (divideTo w sp m) (W * X ^ (sp.length - 1) + Q * G) := by
  induction m with
  | zero =>
    have happ := hW.append (isPolynomialOf_rep0 (sp.length - 1))
    rw [length_rep, mul_comm] at happ
    exact ⟨0, by rwa [divideTo_zero, zero_mul]⟩
  | succ m ih =>
    obtain ⟨hbits, hk, -⟩ := hsp
    obtain ⟨Q, hQ⟩ := ih (by omega)
    have hwindow : m + sp.length ≤ (divideTo w sp m).length := by
      rw [length_divideTo]
      omega
    obtain ⟨Q', hQ'⟩ := hQ.pivot (isBits_divideTo w sp m hw) hbits hwindow hG
    rw [← divideTo_succ, add_assoc, ← add_mul] at hQ'
    exact ⟨Q + Q', hQ'⟩

/-- The remainder is what the last buffer is after its zeros: of a degree below the divisor's, so the polynomial
remainder. -/
theorem isPolynomialOf_remainder : IsPolynomialOf (remainder w sp) ((W * X ^ (sp.length - 1)) %ₘ G) := by
  obtain ⟨R, hR⟩ := exists_isPolynomialOf (remainder w sp)
  obtain ⟨Q, hQ⟩ := exists_isPolynomialOf_divideTo hw hsp hW hG le_rfl
  have hlast : R = W * X ^ (sp.length - 1) + Q * G := by
    have happ := (isPolynomialOf_rep0 w.length).append hR
    rw [← divide_eq_rep_append_remainder hw hsp, mul_zero, zero_add] at happ
    exact happ.unique hQ
  have hdegree : R.degree < G.degree := by
    have hlt := hR.degree_lt
    rwa [length_remainder, ← hsp.degree_eq hG] at hlt
  have hmonic := hsp.monic hG
  have hmod : R %ₘ G = (W * X ^ (sp.length - 1)) %ₘ G :=
    modByMonic_eq_of_dvd_sub hmonic ⟨Q, by rw [hlast, add_sub_cancel_left, mul_comm]⟩
  rw [← hmod, (modByMonic_eq_self_iff hmonic).mpr hdegree]
  exact hR

end

/-- Settles O31: a sequence stands for one polynomial only. -/
theorem crcIsThePolynomialRemainder : Obligations.CrcIsThePolynomialRemainder := by
  unfold Obligations.CrcIsThePolynomialRemainder
  intro w sp W G R hw _ hsp hW hG hR
  exact hR.unique (isPolynomialOf_remainder hw hsp hW hG)

/-! ### When two remainders are the same -/

/-- Two bit sequences of one length are the same exactly when their polynomials are. -/
theorem eq_iff_of_isPolynomialOf {a b : SymSeq} {A B : (ZMod 2)[X]} (ha : isBits a = true) (hb : isBits b = true)
    (hl : a.length = b.length) (hA : IsPolynomialOf a A) (hB : IsPolynomialOf b B) : a = b ↔ A = B := by
  constructor
  · rintro rfl
    exact hA.unique hB
  · rintro rfl
    exact eq_of_isPolynomialOf ha hb hl hA hB

section
variable {w sp : SymSeq} {W G : (ZMod 2)[X]} (hw : isBits w = true) (hsp : ValidDivisor sp)
  (hW : IsPolynomialOf w W) (hG : IsPolynomialOf sp G)
include hw hsp hW hG

/-- Two inputs have one remainder exactly when the divisor divides their shifted difference. -/
theorem remainder_eq_remainder_iff {w' : SymSeq} {W' : (ZMod 2)[X]} (hw' : isBits w' = true)
    (hW' : IsPolynomialOf w' W') :
    remainder w sp = remainder w' sp ↔ G ∣ (W - W') * X ^ (sp.length - 1) := by
  have hlen : (remainder w sp).length = (remainder w' sp).length := by rw [length_remainder, length_remainder]
  rw [eq_iff_of_isPolynomialOf (isBits_remainder _ _ hw) (isBits_remainder _ _ hw') hlen
    (isPolynomialOf_remainder hw hsp hW hG) (isPolynomialOf_remainder hw' hsp hW' hG),
    ← sub_eq_zero, ← sub_modByMonic, ← sub_mul, modByMonic_eq_zero_iff_dvd (hsp.monic hG)]

/-- An input divides to zero exactly when the divisor divides it, shifted. -/
theorem remainder_eq_rep0_iff : remainder w sp = rep sym0 (sp.length - 1) ↔ G ∣ W * X ^ (sp.length - 1) := by
  have hlen : (remainder w sp).length = (rep sym0 (sp.length - 1)).length := by rw [length_remainder, length_rep]
  rw [eq_iff_of_isPolynomialOf (isBits_remainder _ _ hw) (isBits_rep0 _) hlen
    (isPolynomialOf_remainder hw hsp hW hG) (isPolynomialOf_rep0 _), modByMonic_eq_zero_iff_dvd (hsp.monic hG)]

end

/-! ### The laws of the remainder (R104 a, c, d) -/

/-- The XOR of two bit sequences of one length stands for the sum. -/
theorem IsPolynomialOf.xorSeq {a b : SymSeq} {A B : (ZMod 2)[X]} (ha : isBits a = true) (hb : isBits b = true)
    (hl : a.length = b.length) (hA : IsPolynomialOf a A) (hB : IsPolynomialOf b B) :
    IsPolynomialOf (Sys2Proof.Machine.xorSeq a b) (A + B) := by
  have hfront : Sys2Proof.Machine.xorSeq a b = Sys2Proof.Machine.xorFront a b := by
    refine List.ext_getElem? fun j => ?_
    rw [xorFront_getElem?, Sys2Proof.Machine.xorSeq, List.getElem?_zipWith]
    by_cases hj : j < a.length
    · rw [List.getElem?_eq_getElem hj, List.getElem?_eq_getElem (hl ▸ hj)]
    · rw [List.getElem?_eq_none (not_lt.mp hj), List.getElem?_eq_none (hl ▸ not_lt.mp hj)]
  have hxor := hA.xorFront ha hb hl.ge hB
  rwa [hl, Nat.sub_self, pow_zero, one_mul, ← hfront] at hxor

theorem isBits_xorSeq (a b : SymSeq) : isBits (xorSeq a b) = true := by
  rw [isBits_iff, xorSeq, ← List.map_uncurry_zip_eq_zipWith]
  intro c hc
  obtain ⟨⟨x, y⟩, -, rfl⟩ := List.mem_map.mp hc
  exact (isBit_iff _).mp (isBit_xorSym x y)

theorem length_xorSeq (a b : SymSeq) (h : a.length = b.length) : (xorSeq a b).length = a.length := by
  rw [xorSeq, List.length_zipWith, h, Nat.min_self]

/-- Settles O32: the remainder of a sum of polynomials is the sum of their remainders. -/
theorem remainderIsLinear : Obligations.RemainderIsLinear := by
  unfold Obligations.RemainderIsLinear
  intro a b sp ha hb _ hl hsp
  obtain ⟨A, hA⟩ := exists_isPolynomialOf a
  obtain ⟨B, hB⟩ := exists_isPolynomialOf b
  obtain ⟨G, hG⟩ := exists_isPolynomialOf sp
  have hlen : (remainder a sp).length = (remainder b sp).length := by rw [length_remainder, length_remainder]
  have hsum := isPolynomialOf_remainder (isBits_xorSeq a b) hsp (hA.xorSeq ha hb hl hB) hG
  rw [add_mul, add_modByMonic] at hsum
  refine eq_of_isPolynomialOf (isBits_remainder _ _ (isBits_xorSeq a b)) (isBits_xorSeq _ _) ?_ hsum
    ((isPolynomialOf_remainder ha hsp hA hG).xorSeq (isBits_remainder _ _ ha) (isBits_remainder _ _ hb) hlen
      (isPolynomialOf_remainder hb hsp hB hG))
  rw [length_xorSeq _ _ hlen, length_remainder, length_remainder]

/-- Zeros on the left of the input change no remainder: they change no polynomial. -/
theorem remainder_rep_append {w sp : SymSeq} (z : Nat) (hw : isBits w = true) (hsp : ValidDivisor sp) :
    remainder (rep sym0 z ++ w) sp = remainder w sp := by
  obtain ⟨W, hW⟩ := exists_isPolynomialOf w
  obtain ⟨G, hG⟩ := exists_isPolynomialOf sp
  have hzw := (isPolynomialOf_rep0 z).append hW
  have hbits : isBits (rep sym0 z ++ w) = true := (isBits_append _ _).mpr ⟨isBits_rep0 z, hw⟩
  rw [mul_zero, zero_add] at hzw
  rw [remainder_eq_remainder_iff hbits hsp hzw hG hw hW, sub_self, zero_mul]
  exact dvd_zero G

/-- A sequence followed by its own remainder divides to zero: over GF(2) adding the remainder is taking it away. -/
theorem remainder_append_remainder {d sp : SymSeq} (hd : isBits d = true) (hsp : ValidDivisor sp) :
    remainder (d ++ remainder d sp) sp = rep sym0 (sp.length - 1) := by
  obtain ⟨D, hD⟩ := exists_isPolynomialOf d
  obtain ⟨G, hG⟩ := exists_isPolynomialOf sp
  have happ := hD.append (isPolynomialOf_remainder hd hsp hD hG)
  have hbits : isBits (d ++ remainder d sp) = true := (isBits_append _ _).mpr ⟨hd, isBits_remainder _ _ hd⟩
  rw [length_remainder] at happ
  rw [remainder_eq_rep0_iff hbits hsp happ hG]
  have hdvd : G ∣ X ^ (sp.length - 1) * D + (D * X ^ (sp.length - 1)) %ₘ G := by
    rw [mul_comm, add_comm, ← CharTwo.sub_eq_add]
    exact dvd_modByMonic_sub _ _
  exact hdvd.mul_right _

end Sys2Proof.Machine
end

section
/-! PROOFS. The CRC command (spec/40_crc_engine.md): its results by one function (R94, R96), their lengths (R99), and what
the results do not depend on (R90, R104). -/

namespace Sys2Proof.Machine

/-! ### The slicer takes a front of the frame (R92) -/

section
variable (f : SymSeq) (en : BitVec 1)

theorem work_eq_take : work f en = f.take (work f en).length := by
  by_cases hlong : en = 1 ∧ 32 < f.length
  · obtain ⟨hen, hf⟩ := hlong
    rw [length_work, if_pos ⟨hen, hf⟩, work_of_long hen hf, slice_append_slice f _ _ _ (Nat.zero_le _) (by omega),
      slice_zero]
  · have hwork : work f en = f := if_neg hlong
    rw [hwork, List.take_length]

/-- A frame that is not empty leaves a working input that is not empty. -/
theorem work_ne_nil (hf : f ≠ []) : work f en ≠ [] := by
  have hpos : 0 < f.length := List.length_pos_iff.mpr hf
  refine List.ne_nil_of_length_pos ?_
  rw [length_work]
  split <;> omega

/-- With slicing in force a frame of more than 32 bits loses its last bit. -/
theorem work_append_singleton (d : SymSeq) (x : Symbol) (hen : en = 1) (hd : 32 ≤ d.length) :
    work (d ++ [x]) en = d := by
  have hlen : (d ++ [x]).length = d.length + 1 := List.length_append
  rw [work_eq_take, length_work, hlen, if_pos ⟨hen, by omega⟩, Nat.add_sub_cancel, List.take_left' rfl]

/-- Where the slicer treats both frames alike, zeros on the left of the frame are zeros on the left of its working
input. -/
theorem work_rep_append (z : Nat) (h : en = 0 ∨ z + f.length ≤ 32 ∨ 32 < f.length) :
    work (rep sym0 z ++ f) en = rep sym0 z ++ work f en := by
  have hlen : (rep sym0 z).length = z := length_rep sym0 z
  have hwork : (work (rep sym0 z ++ f) en).length = z + (work f en).length := by
    rw [length_work, length_work, List.length_append, hlen]
    rcases h with rfl | hshort | hlong
    · rw [if_neg (by simp), if_neg (by simp)]
    · rw [if_neg (by omega), if_neg (by omega)]
    · by_cases hen : en = 1
      · rw [if_pos ⟨hen, by omega⟩, if_pos ⟨hen, hlong⟩]
        omega
      · rw [if_neg (fun h => hen h.1), if_neg (fun h => hen h.1)]
  rw [work_eq_take, hwork, List.take_append, hlen, Nat.add_sub_cancel_left, ← work_eq_take,
    List.take_of_length_le (by rw [hlen]; exact Nat.le_add_right _ _)]

end

/-! ### The results of CRC by `crc_of` (R94, R96, R99) -/

section
variable {frame poly : SymSeq}

/-- A bit sequence strips to a valid divisor as soon as two bits are left (R90). -/
theorem validDivisor_strip (hp : isBits poly = true) (hk : 2 ≤ (strip poly).length) : ValidDivisor (strip poly) := by
  refine ⟨isBits_strip hp, hk, (strip_eq_nil_or_head? hp).resolve_left fun hnil => ?_⟩
  rw [hnil] at hk
  exact absurd hk (by decide)

theorem ValidCrcOperands.validDivisor (h : ValidCrcOperands frame poly) : ValidDivisor (strip poly) := by
  obtain ⟨hp, -, hk, -⟩ := h
  exact validDivisor_strip hp hk

theorem ValidCrcOperands.isBits_frame (h : ValidCrcOperands frame poly) : isBits frame = true := by
  obtain ⟨-, hf, -, -⟩ := h
  exact hf

theorem ValidCrcOperands.isBits_work (h : ValidCrcOperands frame poly) (en : BitVec 1) :
    isBits (work frame en) = true :=
  Sys2Proof.Machine.isBits_work _ _ h.isBits_frame

/-- On operands that pass every check `compute_crc` answers the remainder, and it with one zero on its left. -/
theorem computeCrc_eq_crcOf (en : BitVec 1) (h : ValidCrcOperands frame poly) :
    computeCrc en frame poly = .ok (crcOf en poly frame, sym0 :: crcOf en poly frame) := by
  obtain ⟨hp, hf, hk, hne⟩ := h
  rw [computeCrc_of_valid en ⟨hp, hf, hk, hne⟩,
    wideRemainder_eq_cons (isBits_work _ _ hf) (work_ne_nil frame en hne) (validDivisor_strip hp hk), crcOf]

theorem exec_crc_of_valid (s : State) (h : ValidCrcOperands s.frame s.poly) :
    exec .crc s = .next (succeed (setCrc (crcOf s.sliceEn s.poly s.frame)
      (sym0 :: crcOf s.sliceEn s.poly s.frame) s)) :=
  exec_crc_of_ok (computeCrc_eq_crcOf _ h)

theorem isBits_crcOf (en : BitVec 1) (h : isBits frame = true) : isBits (crcOf en poly frame) = true :=
  isBits_remainder _ _ (isBits_work _ _ h)

@[simp] theorem length_crcOf (en : BitVec 1) (poly frame : SymSeq) :
    (crcOf en poly frame).length = (strip poly).length - 1 :=
  length_remainder _ _

end

/-- Settles O29, from the length of a remainder. -/
theorem crcResultLengths : Obligations.CrcResultLengths := by
  unfold Obligations.CrcResultLengths
  intro s h
  obtain ⟨-, hf, hk, -⟩ := id h
  refine ⟨_, _, _, exec_crc_of_valid s h, rfl, rfl, rfl, isBits_crcOf _ hf, length_crcOf _ _ _, ?_⟩
  rw [List.length_cons, length_crcOf]
  omega

/-! ### Frames with the same results (R104 c, e) -/

/-- The checks see of a frame whether it is a bit sequence and whether it is empty, no more. -/
theorem crcOperandError_congr {f f' : SymSeq} (poly : SymSeq) (hbits : isBits f' = isBits f)
    (hempty : f'.length = 0 ↔ f.length = 0) : crcOperandError f' poly = crcOperandError f poly := by
  simp only [crcOperandError, hbits, hempty]

/-- Frames that the checks cannot tell apart and that have one CRC have the same results. -/
theorem computeCrc_congr {en : BitVec 1} {f f' poly : SymSeq} (hbits : isBits f' = isBits f)
    (hempty : f'.length = 0 ↔ f.length = 0) (hcrc : ValidCrcOperands f poly → crcOf en poly f' = crcOf en poly f) :
    computeCrc en f' poly = computeCrc en f poly := by
  have hcheck := crcOperandError_congr poly hbits hempty
  cases he : crcOperandError f poly with
  | some e => rw [computeCrc_of_operandError en he, computeCrc_of_operandError en (hcheck.trans he)]
  | none =>
    have hvalid := (crcOperandError_eq_none f poly).mp he
    have hvalid' := (crcOperandError_eq_none f' poly).mp (hcheck.trans he)
    rw [computeCrc_eq_crcOf en hvalid, computeCrc_eq_crcOf en hvalid', hcrc hvalid]

/-- CRC leaves in its results what `compute_crc` answers of the frame. -/
theorem exec_crc_results_eq (s : State) (f f' : SymSeq)
    (h : computeCrc s.sliceEn f' s.poly = computeCrc s.sliceEn f s.poly) :
    ∃ t u, exec .crc { s with frame := f } = .next t ∧ exec .crc { s with frame := f' } = .next u ∧
      u.crc = t.crc ∧ u.crck = t.crck ∧ u.err = t.err := by
  cases hf : computeCrc s.sliceEn f s.poly with
  | error e =>
    exact ⟨_, _, exec_crc_of_error (s := { s with frame := f }) hf,
      exec_crc_of_error (s := { s with frame := f' }) (h.trans hf), rfl, rfl, rfl⟩
  | ok r =>
    exact ⟨_, _, exec_crc_of_ok (s := { s with frame := f }) hf,
      exec_crc_of_ok (s := { s with frame := f' }) (h.trans hf), rfl, rfl, rfl⟩

theorem isBits_append_singleton {d : SymSeq} {x : Symbol} (hx : isBit x = true) : isBits (d ++ [x]) = isBits d := by
  rw [Bool.eq_iff_iff, isBits_append, isBits_cons]
  simp [hx]

theorem isBits_rep_append (z : Nat) (s : SymSeq) : isBits (rep sym0 z ++ s) = isBits s := by
  rw [Bool.eq_iff_iff, isBits_append]
  simp [isBits_rep0]

/-- Settles O35: both frames have the working input `d`. -/
theorem slicedCrcIgnoresTheDelimiter : Obligations.SlicedCrcIgnoresTheDelimiter := by
  unfold Obligations.SlicedCrcIgnoresTheDelimiter
  intro s d x y hen hd hx hy
  have hsame : computeCrc s.sliceEn (d ++ [x]) s.poly = computeCrc s.sliceEn (d ++ [y]) s.poly := by
    refine computeCrc_congr ?_ ?_ fun _ => ?_
    · rw [isBits_append_singleton hx, isBits_append_singleton hy]
    · rw [List.length_append, List.length_append, List.length_singleton, List.length_singleton]
    · rw [crcOf, crcOf, work_append_singleton _ d x hen hd, work_append_singleton _ d y hen hd]
  obtain ⟨u, t, hu, ht, hresults⟩ := exec_crc_results_eq s (d ++ [y]) (d ++ [x]) hsame
  exact ⟨t, u, ht, hu, hresults⟩

/-! ### Zeros on the left (R90, R104 c) -/

/-- Zeros on the left of a frame, where the slicer treats both frames alike. -/
theorem computeCrc_rep_frame (en : BitVec 1) (z : Nat) (f poly : SymSeq) (hne : f ≠ [])
    (h : en = 0 ∨ z + f.length ≤ 32 ∨ 32 < f.length) :
    computeCrc en (rep sym0 z ++ f) poly = computeCrc en f poly := by
  have hpos : 0 < f.length := List.length_pos_iff.mpr hne
  refine computeCrc_congr (isBits_rep_append z f) ?_ fun hvalid => ?_
  · rw [List.length_append]
    omega
  · rw [crcOf, work_rep_append f en z h, remainder_rep_append z (hvalid.isBits_work en) hvalid.validDivisor, crcOf]

section
variable (z : Nat) (p : SymSeq)

theorem crcOperandError_rep_poly (f : SymSeq) : crcOperandError f (rep sym0 z ++ p) = crcOperandError f p := by
  simp only [crcOperandError, isBits_rep_append, strip_rep_append]

theorem computeCrc_rep_poly (en : BitVec 1) (f : SymSeq) :
    computeCrc en f (rep sym0 z ++ p) = computeCrc en f p := by
  simp only [computeCrc, crcOperandError_rep_poly, crcOf, strip_rep_append]

theorem paddedCrc_rep_poly (en : BitVec 1) (w : Nat) (f : SymSeq) :
    paddedCrc en w (rep sym0 z ++ p) f = paddedCrc en w p f := by
  simp only [paddedCrc, crcOf, strip_rep_append]

theorem analyzeErrors_rep_poly (en : BitVec 1) (w : Nat) (f : SymSeq) (ps : List Position) :
    analyzeErrors en w f (rep sym0 z ++ p) ps = analyzeErrors en w f p ps := by
  have hrow : analysisRow en w f (rep sym0 z ++ p) = analysisRow en w f p := by
    funext q
    simp only [analysisRow, paddedCrc_rep_poly]
  simp only [analyzeErrors, crcOperandError_rep_poly, paddedCrc_rep_poly, analysisRows_eq, hrow]

end

section
variable (s : State) (q : SymSeq)

theorem exec_crc_withPoly (h : computeCrc s.sliceEn s.frame q = computeCrc s.sliceEn s.frame s.poly) :
    ∃ t, exec .crc s = .next t ∧ exec .crc { s with poly := q } = .next { t with poly := q } := by
  cases hs : computeCrc s.sliceEn s.frame s.poly with
  | error e =>
    exact ⟨_, exec_crc_of_error hs, exec_crc_of_error (s := { s with poly := q }) (h.trans hs)⟩
  | ok r => exact ⟨_, exec_crc_of_ok hs, exec_crc_of_ok (s := { s with poly := q }) (h.trans hs)⟩

theorem exec_analyze_withPoly
    (h : analyzeErrors s.sliceEn s.dispW.toNat s.frame q s.epos =
      analyzeErrors s.sliceEn s.dispW.toNat s.frame s.poly s.epos) :
    ∃ t, exec .analyze s = .next t ∧ exec .analyze { s with poly := q } = .next { t with poly := q } := by
  cases hs : analyzeErrors s.sliceEn s.dispW.toNat s.frame s.poly s.epos with
  | error e =>
    exact ⟨_, exec_analyze_of_error hs, exec_analyze_of_error (s := { s with poly := q }) (h.trans hs)⟩
  | ok r => exact ⟨_, exec_analyze_of_ok hs, exec_analyze_of_ok (s := { s with poly := q }) (h.trans hs)⟩

end

/-- Settles O33: the remainder, `compute_crc` and `analyze_errors` answer the same with the zeros. -/
theorem leadingZerosChangeNothing : Obligations.LeadingZerosChangeNothing := by
  unfold Obligations.LeadingZerosChangeNothing
  refine ⟨fun z w sp hw _ hsp => remainder_rep_append z hw hsp, fun z s hne h => ?frame, strip_rep_append,
    fun z s => ?poly⟩
  case frame => exact exec_crc_results_eq s s.frame _ (computeCrc_rep_frame s.sliceEn z s.frame s.poly hne h)
  case poly =>
    obtain ⟨t, ht, ht'⟩ := exec_crc_withPoly s _ (computeCrc_rep_poly z s.poly s.sliceEn s.frame)
    obtain ⟨u, hu, hu'⟩ := exec_analyze_withPoly s _ (analyzeErrors_rep_poly z s.poly _ _ s.frame s.epos)
    exact ⟨t, u, ht, hu, ht', hu'⟩

/-! ### Data with its CRC (R104 d) -/

/-- Settles O34: the slicer drops the delimiter of such a frame and leaves the data followed by their remainder. -/
theorem appendedRemainderDividesToZero : Obligations.AppendedRemainderDividesToZero := by
  unfold Obligations.AppendedRemainderDividesToZero
  refine ⟨fun d sp hd _ hsp => remainder_append_remainder hd hsp, fun s d x hen hd hx hdlen hp hk hframe => ?_⟩
  have hk2 : 2 ≤ (strip s.poly).length := by omega
  have hlen : (d ++ remainder d (strip s.poly)).length = d.length + 15 := by
    rw [List.length_append, length_remainder, hk]
  have hbits : isBits s.frame = true := by
    rw [hframe, isBits_append_singleton hx, isBits_append]
    exact ⟨hd, isBits_remainder _ _ hd⟩
  have hvalid : ValidCrcOperands s.frame s.poly := ⟨hp, hbits, hk2, by simp [hframe]⟩
  have hcrc : crcOf s.sliceEn s.poly s.frame = rep sym0 15 := by
    rw [crcOf, hframe, work_append_singleton _ _ x hen (by omega), remainder_append_remainder hd hvalid.validDivisor,
      hk]
  refine ⟨_, exec_crc_of_valid s hvalid, rfl, ?_⟩
  rw [succeed_crc, setCrc_crc, hcrc]

end Sys2Proof.Machine
end

section
/-! PROOFS. The rows of ANALYZE (spec/41_error_analysis.md): their lengths (R119), their distances (R120 d, f), and when a
single flip is detected (R124). -/

namespace Sys2Proof.Machine

open Polynomial

/-! ### A flipped bit sequence (R18) -/

theorem isBit_flipSym (c : Symbol) : isBit (flipSym c) = true := by
  unfold flipSym
  split <;> decide

/-- A flip keeps a bit sequence a bit sequence. -/
theorem isBits_flipAt {s : SymSeq} (p : Nat) (h : isBits s = true) : isBits (flipAt s p) = true := by
  have hflip : isBits ((slice s p (p + 1)).map flipSym) = true :=
    List.all_eq_true.mpr (List.forall_mem_map.mpr fun c _ => isBit_flipSym c)
  rw [flipAt, isBits_append, isBits_append]
  exact ⟨isBits_slice _ _ _ h, hflip, isBits_slice _ _ _ h⟩

/-- The slicer keeps or drops the flipped symbol; the others are as they were. -/
theorem take_flipAt_of_lt (s : SymSeq) {p n : Nat} (h : p < n) : (flipAt s p).take n = flipAt (s.take n) p := by
  refine List.ext_getElem? fun i => ?_
  rw [flip_getElem?, List.getElem?_take, List.getElem?_take, flip_getElem?]
  by_cases hi : i = p
  · subst hi
    rw [if_pos h, if_pos rfl, if_pos rfl, if_pos h]
  · rw [if_neg hi, if_neg hi]

theorem take_flipAt_of_le (s : SymSeq) {p n : Nat} (h : n ≤ p) : (flipAt s p).take n = s.take n := by
  refine List.ext_getElem? fun i => ?_
  rw [List.getElem?_take, List.getElem?_take]
  by_cases hi : i < n
  · rw [if_pos hi, if_pos hi, flipAt_getElem?_of_ne _ _ _ (by omega)]
  · rw [if_neg hi, if_neg hi]

section
variable (f : SymSeq) (en : BitVec 1) {p : Nat}

theorem length_work_flipAt : (work (flipAt f p) en).length = (work f en).length := by
  rw [length_work, length_work, length_flip]

/-- A flip the slicer keeps is a flip of the working input. -/
theorem work_flipAt_of_lt (h : p < (work f en).length) : work (flipAt f p) en = flipAt (work f en) p := by
  rw [work_eq_take, length_work_flipAt, take_flipAt_of_lt f h, ← work_eq_take]

/-- A flip the slicer drops leaves the working input. -/
theorem work_flipAt_of_le (h : (work f en).length ≤ p) : work (flipAt f p) en = work f en := by
  rw [work_eq_take, length_work_flipAt, take_flipAt_of_le f h, ← work_eq_take]

end

/-! ### Distances at a display width (R117, R120 f) -/

/-- A common front adds no distance. -/
theorem hamming_append_left (l a b : SymSeq) : hamming (l ++ a) (l ++ b) = hamming a b := by
  induction l with
  | nil => rfl
  | cons c l ih => rw [List.cons_append, List.cons_append, hamming_cons, if_pos rfl, ih, Nat.zero_add]

theorem hamming_pad (a b : SymSeq) (w : Nat) (h : a.length = b.length) :
    hamming (pad a w) (pad b w) = hamming a b := by
  rw [pad, pad, h, hamming_append_left]

section
variable {en : BitVec 1} {w : Nat} {f p : SymSeq} {ps : List Position}

/-- The distance of a row is that of the two CRCs, whatever the display width. -/
theorem analysisRow_dist (q : Position) :
    (analysisRow en w f p q).dist = hamming (crcOf en p f) (crcOf en p (flipAt f q.toNat)) :=
  hamming_pad _ _ _ (by rw [length_crcOf, length_crcOf])

theorem dist_of_mem_analysisRows {r : ReportRow} (h : r ∈ analysisRows en w f p ps) :
    r.dist = hamming (crcOf en p f) (crcOf en p (flipAt f r.pos.toNat)) := by
  rw [eq_analysisRow_of_mem h]
  exact analysisRow_dist r.pos

/-- The distances in the order of the rows. -/
theorem map_dist_analysisRows :
    (analysisRows en w f p ps).map ReportRow.dist =
      (ps.filter (fun q => decide (q.toNat < f.length))).map
        (fun q => hamming (crcOf en p f) (crcOf en p (flipAt f q.toNat))) := by
  rw [analysisRows_eq, List.map_map]
  exact List.map_congr_left fun q _ => analysisRow_dist q

end

/-- Settles O44: the rows of both widths have the distances of the unpadded CRCs. -/
theorem distancesIgnoreTheDisplayWidth : Obligations.DistancesIgnoreTheDisplayWidth := by
  unfold Obligations.DistancesIgnoreTheDisplayWidth
  intro s v h
  refine ⟨_, _, _, _, exec_analyze_of_valid s h, exec_analyze_of_valid { s with dispW := v } h, rfl, rfl, ?_⟩
  rw [map_dist_analysisRows, map_dist_analysisRows]

/-! ### The lengths agree (R119) -/

/-- Only HAM raises LengthMismatch (R159). -/
theorem exec_analyze_err_ne {s t : State} (h : exec .analyze s = .next t) : t.err ≠ 3 := fun herr =>
  Instr.noConfusion (errorCause_of_err_eq h .lengthMismatch herr).1

/-- Settles O43: on operands that pass the checks the lengths are those of `paddedCrc` and of a flip; on any others BASE is
invalid. -/
theorem analyzeLengthsAgree : Obligations.AnalyzeLengthsAgree := by
  unfold Obligations.AnalyzeLengthsAgree
  intro s
  cases he : crcOperandError s.frame s.poly with
  | some e =>
    have hexec := exec_analyze_of_operandError he
    refine ⟨_, hexec, exec_analyze_err_ne hexec, fun b rows hb => ?_⟩
    cases hb
  | none =>
    have hvalid : ValidCrcOperands s.frame s.poly := (crcOperandError_eq_none _ _).mp he
    have hexec := exec_analyze_of_valid s hvalid
    refine ⟨_, hexec, exec_analyze_err_ne hexec, fun b rows hb hrows => ?_⟩
    obtain rfl := Option.some.inj hb
    obtain rfl := Option.some.inj hrows
    refine ⟨length_paddedCrc _ _ _ _, fun r hr => ?_⟩
    obtain ⟨hcframe, hccrc, -⟩ := row_content_of_mem_analysisRows hr
    rw [hccrc, hcframe, length_paddedCrc, length_paddedCrc, length_flip]
    exact ⟨rfl, rfl, isBits_flipAt _ hvalid.isBits_frame⟩

/-! ### A flip of the delimiter (R120 d) -/

/-- Settles O45: the slicer drops the flipped symbol. -/
theorem delimiterFlipIsUndetected : Obligations.DelimiterFlipIsUndetected := by
  unfold Obligations.DelimiterFlipIsUndetected
  intro s h hen hlong
  refine ⟨_, _, _, exec_analyze_of_valid s h, rfl, rfl, fun r hr hpos => ?_⟩
  obtain ⟨hcframe, hccrc, hdist⟩ := row_content_of_mem_analysisRows hr
  have hdropped : (work s.frame s.sliceEn).length ≤ r.pos.toNat := by
    rw [length_work, if_pos ⟨hen, hlong⟩, hpos]
  have hsame : r.ccrc = paddedCrc s.sliceEn s.dispW.toNat s.poly s.frame := by
    rw [hccrc, hcframe, paddedCrc, crcOf, work_flipAt_of_le _ _ hdropped, paddedCrc, crcOf]
  exact ⟨hsame, by rw [hdist, hsame, hamming_self]⟩

/-! ### When a single flip is detected (R124) -/

theorem bit_flipSym {c : Symbol} (h : isBit c = true) :
    ((bit (flipSym c) : ℕ) : ZMod 2) = (bit c : ZMod 2) + 1 := by
  rw [isBit_iff] at h
  rcases h with rfl | rfl <;> decide

/-- A flip adds the power of x of its index. -/
theorem IsPolynomialOf.flipAt {s : SymSeq} {S : (ZMod 2)[X]} {p : Nat} (hs : isBits s = true) (hp : p < s.length)
    (hS : IsPolynomialOf s S) : IsPolynomialOf (Sys2Proof.Machine.flipAt s p) (S + X ^ (s.length - 1 - p)) := by
  intro j
  rw [coeff_add, hS j, coeff_X_pow, length_flip]
  by_cases hj : j < s.length
  · have hi : s.length - 1 - j < s.length := by omega
    rw [if_pos hj, if_pos hj, List.getD_eq_getElem?_getD, List.getD_eq_getElem?_getD, flip_getElem?,
      List.getElem?_eq_getElem hi]
    by_cases hflipped : s.length - 1 - j = p
    · rw [if_pos hflipped, if_pos (by omega)]
      exact (bit_flipSym (List.all_eq_true.mp hs _ (List.getElem_mem hi))).symm
    · rw [if_neg hflipped, if_neg (by omega), add_zero]
  · rw [if_neg hj, if_neg hj, if_neg (by omega), add_zero]

section
variable {sp : SymSeq} {G : (ZMod 2)[X]}

/-- A divisor has one `'1'` exactly when it is a power of x. -/
theorem ValidDivisor.count_eq_one_iff (h : ValidDivisor sp) (hG : IsPolynomialOf sp G) :
    sp.count sym1 = 1 ↔ G = X ^ (sp.length - 1) := by
  obtain ⟨r, rfl, hr⟩ := h.exists_eq_cons
  obtain ⟨R, hR⟩ := exists_isPolynomialOf r
  have hlead : G = X ^ r.length + R := by
    have hcons := hR.cons sym1
    rw [show bit sym1 = 1 from rfl, Nat.cast_one, C_1, mul_one] at hcons
    exact hG.unique hcons
  have hzero : r = rep sym0 r.length ↔ R = 0 :=
    eq_iff_of_isPolynomialOf hr (isBits_rep0 _) (length_rep _ _).symm hR (isPolynomialOf_rep0 _)
  have hcount : r.count sym1 = 0 ↔ r = rep sym0 r.length := by
    rw [List.count_eq_zero, rep, List.eq_replicate_iff]
    constructor
    · intro hnot
      refine ⟨rfl, fun c hc => ((isBits_iff r).mp hr c hc).resolve_right ?_⟩
      rintro rfl
      exact hnot hc
    · rintro ⟨-, hall⟩ hmem
      exact sym0_ne_sym1 (hall _ hmem).symm
  rw [List.count_cons_self, Nat.add_eq_right, hcount, hzero, hlead, List.length_cons, Nat.add_sub_cancel,
    add_eq_left]

/-- A divisor with two ones or more divides no power of x; one with a single `'1'` divides the higher ones. -/
theorem ValidDivisor.dvd_X_pow_iff (h : ValidDivisor sp) (hG : IsPolynomialOf sp G) (m : Nat)
    (hm : sp.length - 1 ≤ m) : G ∣ X ^ m ↔ sp.count sym1 = 1 := by
  rw [h.count_eq_one_iff hG]
  constructor
  · intro hdvd
    obtain ⟨i, -, hassoc⟩ := (dvd_prime_pow prime_X m).mp hdvd
    have hpow : G = X ^ i := eq_of_monic_of_associated (h.monic hG) (monic_X_pow i) hassoc
    have hdegree := h.degree_eq hG
    rw [hpow, degree_X_pow, Nat.cast_inj] at hdegree
    rw [hpow, hdegree]
  · rintro rfl
    exact pow_dvd_pow X hm

theorem ValidDivisor.one_le_count (h : ValidDivisor sp) : 1 ≤ sp.count sym1 := by
  obtain ⟨r, rfl, -⟩ := h.exists_eq_cons
  exact List.one_le_count_iff.mpr List.mem_cons_self

/-- A flip of the working input leaves the remainder exactly when the divisor has a single `'1'`. -/
theorem remainder_flipAt_eq_iff {w : SymSeq} {p : Nat} (hw : isBits w = true) (hp : p < w.length)
    (h : ValidDivisor sp) : remainder w sp = remainder (flipAt w p) sp ↔ sp.count sym1 = 1 := by
  obtain ⟨W, hW⟩ := exists_isPolynomialOf w
  obtain ⟨G, hG⟩ := exists_isPolynomialOf sp
  rw [remainder_eq_remainder_iff hw h hW hG (isBits_flipAt p hw) (hW.flipAt hw hp), sub_add_cancel_left, neg_mul,
    dvd_neg, ← pow_add, h.dvd_X_pow_iff hG _ (Nat.le_add_left _ _)]

/-- By a divisor with a single `'1'` every input divides to zero. -/
theorem remainder_of_count_eq_one {w : SymSeq} (hw : isBits w = true) (h : ValidDivisor sp)
    (hcount : sp.count sym1 = 1) : remainder w sp = rep sym0 (sp.length - 1) := by
  obtain ⟨W, hW⟩ := exists_isPolynomialOf w
  obtain ⟨G, hG⟩ := exists_isPolynomialOf sp
  rw [remainder_eq_rep0_iff hw h hW hG]
  exact ((h.dvd_X_pow_iff hG _ le_rfl).mpr hcount).mul_left W

end

/-- A flip the slicer keeps changes the CRC exactly when the polynomial has two ones or more. -/
theorem crcOf_flipAt_ne_iff {f p : SymSeq} {en : BitVec 1} {q : Nat} (h : ValidCrcOperands f p)
    (hq : q < (work f en).length) : crcOf en p f ≠ crcOf en p (flipAt f q) ↔ 2 ≤ (strip p).count sym1 := by
  have hone := h.validDivisor.one_le_count
  rw [crcOf, crcOf, work_flipAt_of_lt f en hq, ne_eq,
    remainder_flipAt_eq_iff (h.isBits_work en) hq h.validDivisor]
  omega

/-- With a single `'1'` in the polynomial every CRC is zeros. -/
theorem crcOf_of_count_eq_one {f p : SymSeq} (en : BitVec 1) (hf : isBits f = true) (hp : ValidDivisor (strip p))
    (hcount : (strip p).count sym1 = 1) : crcOf en p f = rep sym0 ((strip p).length - 1) :=
  remainder_of_count_eq_one (isBits_work f en hf) hp hcount

/-- Settles O46: the distance of a row is 0 exactly when the flip leaves the CRC. -/
theorem singleFlipDetection : Obligations.SingleFlipDetection := by
  unfold Obligations.SingleFlipDetection
  intro s h
  have hdiv := h.validDivisor
  refine ⟨_, _, exec_analyze_of_valid s h, rfl, fun r hr hpos => ?detected, fun hcount => ⟨fun r hr => ?undetected,
    _, exec_crc_of_valid s h, congrArg some (crcOf_of_count_eq_one _ h.isBits_frame hdiv hcount)⟩⟩
  case detected =>
    rw [← crcOf_flipAt_ne_iff h hpos, Nat.one_le_iff_ne_zero, dist_of_mem_analysisRows hr, ne_eq,
      hamming_eq_zero_iff _ _ (by rw [length_crcOf, length_crcOf])]
  case undetected =>
    rw [dist_of_mem_analysisRows hr, crcOf_of_count_eq_one _ h.isBits_frame hdiv hcount,
      crcOf_of_count_eq_one _ (isBits_flipAt _ h.isBits_frame) hdiv hcount, hamming_self]

end Sys2Proof.Machine
end

section
/-! PROOFS. The legal states (spec/10_state.md sections 2 to 6, spec/60_exceptions.md section 1): the reset state is one, and
every write of a register, every command and every step keeps a state legal. -/

namespace Sys2Proof.Machine

/-! ### What keeps a state legal: one lemma per write -/

namespace Legal

variable {s : State} (h : Legal s)
include h

theorem withPending (q : List HostInput) : Legal { s with pending := q } := { h with }

theorem setErr {c : BitVec 4} (hc : c.toNat ≤ 7) : Legal (setErr c s) := { h with err_named := hc }

theorem succeed : Legal (succeed s) := h.setErr (c := okCode) (by decide)

theorem setSeq (x : SeqReg) {v : SymSeq} (hv : fits Config.maxLen v.length) : Legal (setSeq x v s) := by
  have hseq : ∀ y, fits Config.maxLen (getSeq y (Sys2Proof.Machine.setSeq x v s)).length := fun y => by
    rw [getSeq_setSeq]
    split
    · exact hv
    · exact h.seq_fits y
  cases x <;> exact { h with seq_fits := hseq }

theorem setEpos {ps : List Position} (hps : fits Config.maxPos ps.length) : Legal (setEpos ps s) :=
  { h with epos_fits := hps }

theorem writeCfg (f : CfgField) (v : BitVec 24) : Legal (writeCfg f v s) := by
  cases f <;> exact { h with }

theorem setCrc {c ck : SymSeq} (hc : CrcPairLegal Config.maxLen (some c) (some ck)) : Legal (setCrc c ck s) :=
  { h with crc_pair := hc }

theorem setHexr {r : SymSeq} (hr : HexLiteral Config.maxLen r) : Legal (setHexr r s) :=
  { h with hexr_literal := fun _ heq => Option.some.inj heq ▸ hr }

theorem setDist {d : Nat} (hd : fits Config.maxLen d) : Legal (setDist d s) :=
  { h with dist_fits := fun _ heq => Option.some.inj heq ▸ hd }

theorem setReport {b : Baseline} {rows : List ReportRow}
    (hb : ReportLegal Config.maxLen Config.maxPos (some b) (some rows)) : Legal (setReport b rows s) :=
  { h with report_pair := hb }

/-- Invalid results have no form to keep. -/
theorem invalidate (g : ResultGroup) : Legal (invalidate g s) := by
  cases g with
  | crc => exact { h with crc_pair := trivial }
  | hex => exact { h with hexr_literal := nofun }
  | ham => exact { h with dist_fits := nofun }
  | analyze => exact { h with report_pair := trivial }

theorem raise (o : Option ResultGroup) (e : ErrorKind) : Legal (raise o e s) := by
  cases o with
  | none => exact h.setErr (errCode_le e)
  | some g => exact (h.invalidate g).setErr (errCode_le e)

theorem seqClear (x : ClrReg) : Legal (seqClear x s) := by
  cases x with
  | seq r => exact h.setSeq r (fits_maxLen_of_le 0 (by decide))
  | epos => exact h.setEpos (fits_maxPos_of_le 0 (by decide))

end Legal

/-! ### The reset state (R41) -/

/-- Settles O12: the stores are empty, the results are invalid, and STATUS.ERR is 0. -/
theorem resetIsLegal : Obligations.ResetIsLegal := by
  unfold Obligations.ResetIsLegal
  exact {
    seq_fits := fun x => (getSeq_reset x).symm ▸ fits_maxLen_of_le 0 (by decide)
    epos_fits := fits_maxPos_of_le 0 (by decide)
    crc_pair := trivial
    hexr_literal := nofun
    dist_fits := nofun
    report_pair := trivial
    err_named := by decide }

/-! ### What fits after one more entry (R131, R132) -/

/-- A store that is not full has room for one more entry. -/
theorem fits_succ_of_not_full {cap : Capacity} {n : Nat} (h : fits cap n) (hn : isFull cap n = false) :
    fits cap (n + 1) := by
  cases cap with
  | bounded m =>
    have hle : n ≤ m := h
    have hne : n ≠ m := beq_eq_false_iff_ne.mp hn
    exact Nat.lt_of_le_of_ne hle hne
  | unbounded => trivial

/-! ### The forms of the results (R32 to R36) -/

/-- The results of CRC: a zero and the CRC, no longer than the polynomial (R32). -/
theorem crcPairLegal_crcOf {en : BitVec 1} {f p : SymSeq} {cap : Capacity} (h : ValidCrcOperands f p)
    (hp : fits cap p.length) : CrcPairLegal cap (some (crcOf en p f)) (some (sym0 :: crcOf en p f)) := by
  obtain ⟨-, hf, hk, -⟩ := h
  have hle : (sym0 :: crcOf en p f).length ≤ p.length := by
    have hstrip := length_strip_le p
    rw [List.length_cons, length_crcOf]
    omega
  refine ⟨rfl, isBits_crcOf en hf, List.ne_nil_of_length_pos ?_, fits_mono cap _ _ hle hp⟩
  rw [length_crcOf]
  omega

theorem bit_le_one (c : Symbol) : bit c ≤ 1 := by
  unfold bit
  split <;> decide

theorem value_lt (s : SymSeq) : value s < 2 ^ s.length := by
  induction s with
  | nil => exact Nat.one_pos
  | cons c s ih =>
    have hbit : bit c * 2 ^ s.length ≤ 1 * 2 ^ s.length := Nat.mul_le_mul_right _ (bit_le_one c)
    rw [value_cons, List.length_cons, pow_succ]
    omega

/-- The literal of the value of a sequence that fits (R33). -/
theorem hexLiteral_hexstr_value (b : SymSeq) (hb : fits Config.maxLen b.length) :
    HexLiteral Config.maxLen (hexstr (value b)) := by
  refine ⟨hexDigits (hexDigitCount (value b)) (value b), rfl, ?_, all_isHexDigit_hexDigits _ _, ?_⟩
  · refine List.ne_nil_of_length_pos ?_
    rw [length_hexDigits]
    exact Nat.lt_of_lt_of_le Nat.one_pos (Nat.le_max_left _ _)
  · cases hc : Config.maxLen with
    | unbounded => trivial
    | bounded m =>
      rw [hc] at hb
      have hle : b.length ≤ m := hb
      have hmin := maxLen_bounded_ge m hc
      have hcount := hexDigitCount_le_of_lt _ _ (value_lt b)
      show (hexDigits (hexDigitCount (value b)) (value b)).length ≤ (m + 3) / 4
      rw [length_hexDigits]
      omega

theorem binaryToHex_eq_ok {b r : SymSeq} (h : binaryToHex b = .ok r) : r = hexstr (value b) := by
  unfold binaryToHex at h
  split at h
  · cases h
  · split at h
    · cases h
    · exact (Except.ok.inj h).symm

/-- What HEX can read of a legal state fits (R32, R101). -/
theorem Legal.hexSource_fits {s : State} (h : Legal s) {x : HexReg} {b : SymSeq} (hx : hexSource x s = some b) :
    fits Config.maxLen b.length := by
  have hpair := h.crc_pair
  cases x with
  | seq r => exact Option.some.inj hx ▸ h.seq_fits r
  | crc =>
    rw [show s.crc = some b from hx] at hpair
    cases hck : s.crck with
    | none => rw [hck] at hpair; exact hpair.elim
    | some ck =>
      rw [hck] at hpair
      obtain ⟨rfl, -, -, hfits⟩ := hpair
      exact fits_mono _ _ _ (Nat.le_succ _) hfits
  | crck =>
    rw [show s.crck = some b from hx] at hpair
    cases hc : s.crc with
    | none => rw [hc] at hpair; exact hpair.elim
    | some c =>
      rw [hc] at hpair
      obtain ⟨-, -, -, hfits⟩ := hpair
      exact hfits

theorem hammingDistance_eq_ok {a b : SymSeq} {d : Nat} (h : hammingDistance a b = .ok d) :
    a.length = b.length ∧ d = hamming a b := by
  unfold hammingDistance at h
  split at h
  · cases h
  · split at h
    · cases h
    case isFalse hn => exact ⟨not_not.mp hn, (Except.ok.inj h).symm⟩

/-- A distance is at most the length of its operands (R34). -/
theorem hammingDistance_fits {a b : SymSeq} {d : Nat} {cap : Capacity} (h : hammingDistance a b = .ok d)
    (ha : fits cap a.length) : fits cap d := by
  obtain ⟨hlen, rfl⟩ := hammingDistance_eq_ok h
  exact fits_mono cap _ _ (hamming_le_length a b hlen) ha

/-- A second flip of the same index undoes the first. -/
theorem flipAt_flipAt {s : SymSeq} (p : Nat) (h : isBits s = true) : flipAt (flipAt s p) p = s := by
  refine List.ext_getElem? fun i => ?_
  rw [flip_getElem?, flip_getElem?]
  by_cases hi : i = p
  · rw [if_pos hi, if_pos hi]
    cases hc : s[i]? with
    | none => rfl
    | some c => rcases (isBits_iff s).mp h c (List.mem_of_getElem? hc) with rfl | rfl <;> rfl
  · rw [if_neg hi, if_neg hi]

section
variable {en : BitVec 1} {w : Nat} {f p : SymSeq} {ps : List Position} {capLen capPos : Capacity}

/-- A row is of a position within the frame (R118). -/
theorem pos_lt_of_mem_analysisRows {r : ReportRow} (h : r ∈ analysisRows en w f p ps) : r.pos.toNat < f.length := by
  have hpos : r.pos ∈ (analysisRows en w f p ps).map ReportRow.pos := List.mem_map_of_mem h
  rw [map_pos_analysisRows] at hpos
  exact of_decide_eq_true (List.mem_filter.mp hpos).2

/-- The rows of a frame that fits, against its baseline (R36). -/
theorem rowLegal_of_mem_analysisRows (hf : isBits f = true) (hfits : fits capLen f.length) {r : ReportRow}
    (h : r ∈ analysisRows en w f p ps) : RowLegal capLen { crc := paddedCrc en w p f, dist := 0 } f r := by
  obtain ⟨hcframe, hccrc, hdist⟩ := row_content_of_mem_analysisRows h
  have hlen : r.cframe.length = f.length := by rw [hcframe, length_flip]
  have hbits : isBits r.cframe = true := hcframe ▸ isBits_flipAt _ hf
  exact {
    pos_in_range := hlen ▸ pos_lt_of_mem_analysisRows h
    cframe_bits := hbits
    cframe_fits := hlen ▸ hfits
    cframe_flip := by rw [hcframe, flipAt_flipAt _ hf]
    ccrc_bits := hccrc ▸ isBits_paddedCrc en w p _ hbits
    ccrc_length := by rw [hccrc, length_paddedCrc, length_paddedCrc]
    dist_is := hdist }

/-- The results of ANALYZE (R35, R36). -/
theorem reportLegal_analysisRows (h : ValidCrcOperands f p) (hfits : fits capLen f.length)
    (hpos : fits capPos ps.length) :
    ReportLegal capLen capPos (some { crc := paddedCrc en w p f, dist := 0 }) (some (analysisRows en w f p ps)) := by
  obtain ⟨-, hf, hk, -⟩ := h
  have hle : (analysisRows en w f p ps).length ≤ ps.length := by
    rw [length_analysisRows]
    exact List.length_filter_le _ _
  refine ⟨rfl, isBits_paddedCrc en w p f hf, List.ne_nil_of_length_pos ?_, fits_mono capPos _ _ hle hpos,
    f, fun _ => rowLegal_of_mem_analysisRows hf hfits⟩
  rw [length_paddedCrc]
  omega

end

/-! ### Commands and steps -/

/-- Every command ends in a legal state when it starts in one. -/
theorem Legal.exec {s : State} (h : Legal s) (i : Instr) : ∃ t, exec i s = .next t ∧ Legal t := by
  cases i with
  | clr x => exact ⟨_, exec_clr x s, (h.seqClear x).succeed⟩
  | push x c =>
    cases hfull : isFull Config.maxLen (getSeq x s).length with
    | true => exact ⟨_, exec_push_of_full x c hfull, h.raise _ _⟩
    | false =>
      have hroom : fits Config.maxLen (getSeq x s ++ [c]).length := by
        rw [List.length_append]
        exact fits_succ_of_not_full (h.seq_fits x) hfull
      exact ⟨_, exec_push_of_not_full x c hfull, (h.setSeq x hroom).succeed⟩
  | pushp p =>
    cases hfull : isFull Config.maxPos s.epos.length with
    | true => exact ⟨_, exec_pushp_of_full p hfull, h.raise _ _⟩
    | false =>
      have hroom : fits Config.maxPos (s.epos ++ [p]).length := by
        rw [List.length_append]
        exact fits_succ_of_not_full h.epos_fits hfull
      exact ⟨_, exec_pushp_of_not_full p hfull, (h.setEpos hroom).succeed⟩
  | cfgw f v => exact ⟨_, exec_cfgw f v s, (h.writeCfg f v).succeed⟩
  | crc =>
    cases he : crcOperandError s.frame s.poly with
    | some e => exact ⟨_, exec_crc_of_error (computeCrc_of_operandError _ he), h.raise _ _⟩
    | none =>
      have hvalid : ValidCrcOperands s.frame s.poly := (crcOperandError_eq_none _ _).mp he
      exact ⟨_, exec_crc_of_valid s hvalid, (h.setCrc (crcPairLegal_crcOf hvalid (h.seq_fits .poly))).succeed⟩
  | hex x =>
    cases hx : hexSource x s with
    | none => exact ⟨_, exec_hex_of_invalid hx, h.raise _ _⟩
    | some b =>
      cases hr : binaryToHex b with
      | error e => exact ⟨_, exec_hex_of_error hx hr, h.raise _ _⟩
      | ok r =>
        obtain rfl := binaryToHex_eq_ok hr
        exact ⟨_, exec_hex_of_ok hx hr, (h.setHexr (hexLiteral_hexstr_value b (h.hexSource_fits hx))).succeed⟩
  | ham =>
    cases hd : hammingDistance s.opa s.opb with
    | error e => exact ⟨_, exec_ham_of_error hd, h.raise _ _⟩
    | ok d => exact ⟨_, exec_ham_of_ok hd, (h.setDist (hammingDistance_fits hd (h.seq_fits .opa))).succeed⟩
  | analyze =>
    cases he : crcOperandError s.frame s.poly with
    | some e => exact ⟨_, exec_analyze_of_operandError he, h.raise _ _⟩
    | none =>
      have hvalid : ValidCrcOperands s.frame s.poly := (crcOperandError_eq_none _ _).mp he
      exact ⟨_, exec_analyze_of_valid s hvalid,
        (h.setReport (reportLegal_analysisRows hvalid (h.seq_fits .frame) h.epos_fits)).succeed⟩
  | reset => exact ⟨_, exec_reset s, resetIsLegal.withPending s.pending⟩

/-- Settles O13, by the cases of the next input: none, hardware reset, a command, an illegal word. -/
theorem everyStepKeepsLegal : Obligations.EveryStepKeepsLegal := by
  unfold Obligations.EveryStepKeepsLegal
  intro s t h hstep
  rcases step_cases s t hstep with ⟨-, rfl⟩ | ⟨rest, -, rfl⟩ | ⟨w, rest, i, -, -, hexec⟩ | ⟨w, rest, e, -, -, rfl⟩
  · exact h
  · exact resetIsLegal.withPending rest
  · obtain ⟨t', ht', hlegal⟩ := (h.withPending rest).exec i
    obtain rfl : t' = t := Host.Outcome.next.inj (ht'.symm.trans hexec)
    exact hlegal
  · exact (h.withPending rest).raise none .illegalCommand

end Sys2Proof.Machine
end

section
/-! PROOFS. Loading operands (spec/30_encoding.md section 5): LOAD and LOADP (R81, R186), and the document's functions as
command sequences (R82). -/

namespace Sys2Proof.Machine

/-! ### Runs over issued commands (R26, R81) -/

theorem issue_append (is js : List Instr) : issue (is ++ js) = issue is ++ issue js := List.map_append

/-- A run over issued commands runs the first of them. -/
theorem run_issue_cons {s t : State} {i : Instr} {is : List Instr} {rest : List HostInput} (n : Nat)
    (hp : s.pending = issue (i :: is) ++ rest) (hwf : i.wf = true)
    (h : exec i { s with pending := issue is ++ rest } = .next t) :
    Sys2Proof.core.run (n + 1) s = Sys2Proof.core.run n t :=
  run_succ n s t ((step_command hp (decode_encode hwf)).trans h)

/-- A run over the last issued command ends where it ends. -/
theorem run_issue_last {s t : State} {i : Instr} {rest : List HostInput} (hp : s.pending = issue [i] ++ rest)
    (hwf : i.wf = true) (h : exec i { s with pending := rest } = .next t) : Sys2Proof.core.run 1 s = .next t :=
  run_issue_cons 0 hp hwf h

/-! ### LOAD and LOADP (R81, R186) -/

section
variable (x : SeqReg) (s : State) (rest : List HostInput) (n : Nat)

/-- The pushes of LOAD append their symbols to a register that has room for them. -/
theorem run_pushes (v cs : SymSeq) (hfits : fits Config.maxLen (v.length + cs.length)) :
    Sys2Proof.core.run (cs.length + n)
        (setSeq x v { s with err := 0, pending := issue (cs.map (Instr.push x)) ++ rest }) =
      Sys2Proof.core.run n (setSeq x (v ++ cs) { s with err := 0, pending := rest }) := by
  induction cs generalizing v with
  | nil => rw [List.append_nil, List.length_nil, Nat.zero_add]; rfl
  | cons c cs ih =>
    have hlen : (v ++ [c]).length + cs.length = v.length + (c :: cs).length := by
      rw [List.length_append, List.length_singleton, List.length_cons, Nat.add_assoc, Nat.add_comm 1]
    have hroom : isFull Config.maxLen v.length = false :=
      isFull_eq_false_of_fits _ _ _ hfits (by rw [List.length_cons]; omega)
    have hexec : exec (.push x c) (setSeq x v { s with err := 0, pending := issue (cs.map (Instr.push x)) ++ rest }) =
        .next (setSeq x (v ++ [c]) { s with err := 0, pending := issue (cs.map (Instr.push x)) ++ rest }) := by
      rw [exec_push_of_not_full x c (by rwa [getSeq_setSeq_self]), succeed_seqAppend, getSeq_setSeq_self]
      cases x <;> rfl
    have hstep := run_issue_cons (s := setSeq x v { s with
      err := 0, pending := issue ((c :: cs).map (Instr.push x)) ++ rest }) (cs.length + n) (setSeq_pending _ _ _) rfl
      ((congrArg (exec (.push x c)) (setSeq_withPending _ _ x v).symm).trans hexec)
    rw [List.length_cons, Nat.add_right_comm, hstep, ih (v ++ [c]) (hlen ▸ hfits), ← List.append_cons v c cs]

/-- LOAD leaves its string in its register and every other register but STATUS.ERR as it was. -/
theorem run_load (cs : SymSeq) (hfits : fits Config.maxLen cs.length)
    (hp : s.pending = issue (expandLoad x cs) ++ rest) :
    Sys2Proof.core.run (cs.length + 1 + n) s =
      Sys2Proof.core.run n (setSeq x cs { s with err := 0, pending := rest }) := by
  have hclr : exec (.clr (.seq x)) { s with pending := issue (cs.map (Instr.push x)) ++ rest } =
      .next (setSeq x [] { s with err := 0, pending := issue (cs.map (Instr.push x)) ++ rest }) := by
    rw [exec_clr]
    cases x <;> rfl
  rw [Nat.add_right_comm, run_issue_cons (cs.length + n) hp rfl hclr,
    run_pushes x s rest n [] cs (by rwa [List.length_nil, Nat.zero_add]), List.nil_append]

/-- The pushes of LOADP append their positions to a list that has room for them. -/
theorem run_pushps (v ps : List Position) (hfits : fits Config.maxPos (v.length + ps.length)) :
    Sys2Proof.core.run (ps.length + n)
        { s with epos := v, err := 0, pending := issue (ps.map Instr.pushp) ++ rest } =
      Sys2Proof.core.run n { s with epos := v ++ ps, err := 0, pending := rest } := by
  induction ps generalizing v with
  | nil => rw [List.append_nil, List.length_nil, Nat.zero_add]; rfl
  | cons p ps ih =>
    have hlen : (v ++ [p]).length + ps.length = v.length + (p :: ps).length := by
      rw [List.length_append, List.length_singleton, List.length_cons, Nat.add_assoc, Nat.add_comm 1]
    have hroom : isFull Config.maxPos v.length = false :=
      isFull_eq_false_of_fits _ _ _ hfits (by rw [List.length_cons]; omega)
    have hexec := exec_pushp_of_not_full
      (s := { s with epos := v, err := 0, pending := issue (ps.map Instr.pushp) ++ rest }) p hroom
    have hstep := run_issue_cons (s := { s with
      epos := v, err := 0, pending := issue ((p :: ps).map Instr.pushp) ++ rest }) (ps.length + n) rfl rfl hexec
    rw [List.length_cons, Nat.add_right_comm, hstep, List.append_cons v p ps]
    exact ih (v ++ [p]) (hlen ▸ hfits)

/-- LOADP leaves its list in EPOS and every other register but STATUS.ERR as it was. -/
theorem run_loadp (ps : List Position) (hfits : fits Config.maxPos ps.length)
    (hp : s.pending = issue (expandLoadp ps) ++ rest) :
    Sys2Proof.core.run (ps.length + 1 + n) s =
      Sys2Proof.core.run n { s with epos := ps, err := 0, pending := rest } := by
  rw [Nat.add_right_comm, run_issue_cons (ps.length + n) hp rfl (exec_clr .epos _)]
  exact run_pushps s rest n [] ps (by rwa [List.length_nil, Nat.zero_add])

end

/-- Settles O20: no command is left to run after the last one of the expansion. -/
theorem loadReplacesTheOperand : Obligations.LoadReplacesTheOperand := by
  unfold Obligations.LoadReplacesTheOperand
  exact ⟨fun s x cs rest hfits hp => run_load x s rest 0 cs hfits hp,
    fun s ps rest hfits hp => run_loadp s rest 0 ps hfits hp⟩

/-! ### The document's functions (R82) -/

/-- Two LOADs in a row, with more commands after them. -/
theorem run_load_load (x y : SeqReg) (s : State) (a b : SymSeq) (is : List Instr) (rest : List HostInput) (n : Nat)
    (ha : fits Config.maxLen a.length) (hb : fits Config.maxLen b.length)
    (hp : s.pending = issue (expandLoad x a ++ expandLoad y b ++ is) ++ rest) :
    Sys2Proof.core.run (a.length + b.length + 2 + n) s =
      Sys2Proof.core.run n (setSeq y b (setSeq x a { s with err := 0, pending := issue is ++ rest })) := by
  rw [List.append_assoc, issue_append, List.append_assoc] at hp
  have hfirst := run_load x s _ (b.length + 1 + n) a ha hp
  have hsecond := run_load y (setSeq x a { s with err := 0, pending := issue (expandLoad y b ++ is) ++ rest })
    (issue is ++ rest) n b hb (by rw [setSeq_pending, issue_append, List.append_assoc])
  have hpending : { setSeq x a { s with err := 0, pending := issue (expandLoad y b ++ is) ++ rest } with
      err := 0, pending := issue is ++ rest } = setSeq x a { s with err := 0, pending := issue is ++ rest } := by
    cases x <;> rfl
  rw [hpending] at hsecond
  rw [← hsecond, ← hfirst]
  congr 1
  omega

/-- Settles O47: each sequence loads the operands, and its last command ends as its function answers. -/
theorem documentFunctionsAsCommandSequences : Obligations.DocumentFunctionsAsCommandSequences := by
  unfold Obligations.DocumentFunctionsAsCommandSequences
  refine ⟨fun s f p rest hf hp hpend => ?crc, fun s b rest hb hpend => ?hex,
    fun s a b rest ha hb hpend => ?ham, fun s f p ps rest hf hp hps hpend => ?analyze⟩
  case crc =>
    have hrun := run_load_load .frame .poly s f p [.crc] rest 1 hf hp hpend
    cases h : computeCrc s.sliceEn f p with
    | error e => exact ⟨_, hrun.trans (run_issue_last rfl rfl (exec_crc_of_error h)), rfl, rfl, rfl, rfl⟩
    | ok r => exact ⟨_, hrun.trans (run_issue_last rfl rfl (exec_crc_of_ok h)), rfl, rfl, rfl, rfl⟩
  case hex =>
    have hrun := run_load .opa s (issue [.hex (.seq .opa)] ++ rest) 1 b hb
      (by rw [hpend, issue_append, List.append_assoc])
    cases h : binaryToHex b with
    | error e => exact ⟨_, hrun.trans (run_issue_last rfl rfl (exec_hex_of_error rfl h)), rfl, rfl, rfl⟩
    | ok r => exact ⟨_, hrun.trans (run_issue_last rfl rfl (exec_hex_of_ok rfl h)), rfl, rfl, rfl⟩
  case ham =>
    have hrun := run_load_load .opa .opb s a b [.ham] rest 1 ha hb hpend
    cases h : hammingDistance a b with
    | error e => exact ⟨_, hrun.trans (run_issue_last rfl rfl (exec_ham_of_error h)), rfl, rfl, rfl⟩
    | ok d => exact ⟨_, hrun.trans (run_issue_last rfl rfl (exec_ham_of_ok h)), rfl, rfl, rfl⟩
  case analyze =>
    rw [List.append_assoc] at hpend
    have hloads := run_load_load .frame .poly s f p (expandLoadp ps ++ [.analyze]) rest (ps.length + 1 + 1) hf hp hpend
    have hloadp := run_loadp (setSeq .poly p (setSeq .frame f
      { s with err := 0, pending := issue (expandLoadp ps ++ [.analyze]) ++ rest }))
      (issue [.analyze] ++ rest) 1 ps hps (by
        rw [setSeq_pending, setSeq_pending, issue_append, List.append_assoc])
    have hcount : f.length + p.length + ps.length + 4 = f.length + p.length + 2 + (ps.length + 1 + 1) := by omega
    rw [hcount, hloads, hloadp]
    cases h : analyzeErrors s.sliceEn s.dispW.toNat f p ps with
    | error e => exact ⟨_, run_issue_last rfl rfl (exec_analyze_of_error h), rfl, rfl, rfl, rfl⟩
    | ok r => exact ⟨_, run_issue_last rfl rfl (exec_analyze_of_ok h), rfl, rfl, rfl, rfl⟩

end Sys2Proof.Machine
end
